-- ==== Sys2Proof/Word.lean ====
section
/-! DEFINITION. The words of the block: their widths only (00_scope.md R7 to R9). -/

namespace Sys2Proof

/-- A command or response word, `CMD_W = RSP_W = 32` (R7). -/
abbrev Word := BitVec 32

/-- A byte of a frame (R9). -/
abbrev Byte := BitVec 8

/-- A residual's four-bit pattern, and every other four-bit field (R60, R64). -/
abbrev Nibble := BitVec 4

/-- The 16-bit pattern of an `int16`: a sample, a coefficient, a history cell (R8, R63). -/
abbrev I16 := BitVec 16

/-- The pattern of a `u31`: an LPC sequence length or sample count (R25). -/
abbrev U31 := BitVec 31

/-- The eight bytes of a frame, header byte first (R60). -/
abbrev Frame := Vector Byte 8

/-- The fourteen samples of a block, in order (R7 `FRAME_SAMPLES`, R130). -/
abbrev Block := Vector I16 14

end Sys2Proof
end

