-- ==== Sys2Proof/Syntax.lean ====
section
/-! DEFINITION. The fourteen operations of `MCA-ADPCM-CMD` version 1 (00_scope.md R3), one constructor per row of
the opcode table. An operand keeps the width of the field that carries it (30_encoding.md R64), so an operand value
that faults (`CH` 2..15, an `IDX` out of range, a reserved `coefIndex`, a length of 2^31 or more) is an instruction
too, whose meaning takes the fault (60_exceptions.md R195 steps 3 to 5). -/

namespace Sys2Proof

/-- One operation with its operands. `ch` is the command word's `CH` field, `idx` and `len` its `IDX` field. -/
inductive Instr where
  /-- R150 -/
  | nop
  /-- R151 -/
  | softReset
  /-- R84: `u = IMM[3:0]` -/
  | nibDec (u : Nibble)
  /-- R85: the pattern `IMM[7:0]` of a signed byte -/
  | nibEnc (b : Byte)
  /-- R152 -/
  | coefWr (ch idx : Nibble) (v : I16)
  /-- R153 -/
  | coefRd (ch idx : Nibble)
  /-- R154 -/
  | histWr (ch idx : Nibble) (v : I16)
  /-- R155 -/
  | histRd (ch idx : Nibble)
  /-- R118 -/
  | passStart (ch : Nibble)
  /-- R119: eight frame bytes from two payload words -/
  | decFrame (ch : Nibble) (frame : Frame)
  /-- R140: `len` is `IDX`; fourteen samples from seven payload words -/
  | encBlock (ch len : Nibble) (samples : Block)
  /-- R99: `n` is the one payload word -/
  | lpcStart (ch : Nibble) (n : Word)
  /-- R100 -/
  | lpcSample (ch : Nibble) (x : I16)
  /-- R101 -/
  | lpcSolve (ch : Nibble)
  deriving DecidableEq, Repr

/-- The operation of an instruction without its operands: a row of the opcode table (R66, R67). -/
inductive Op where
  | nop | softReset | nibDec | nibEnc | coefWr | coefRd | histWr | histRd
  | passStart | decFrame | encBlock | lpcStart | lpcSample | lpcSolve
  deriving DecidableEq, Repr

/-- Why the decoder rejects a packet: the first two checks of R195. -/
inductive Reject where
  /-- R68: `OPC` is none of the fourteen codes -/
  | illegalOpcode
  /-- R69: a must-be-zero bit of a legal `OPC` is 1 -/
  | reservedField
  deriving DecidableEq, Repr

/-- What the decoder reads from a complete packet. -/
inductive Decoded where
  | instr (i : Instr)
  | reject (r : Reject)
  deriving DecidableEq, Repr

end Sys2Proof
end

