-- ==== Sys2Proof/WellFormed.lean ====
section
/-! DEFINITION. The operand values the command set calls legal (30_encoding.md R67, R71, R61; 41_lpc_solver.md R99).
An instruction that is not well formed is still an instruction: its meaning takes the fault of the first check it
fails (60_exceptions.md R195). What depends on the state (the LPC sequence checks) is no part of this. -/

namespace Sys2Proof

/-- `CH` names one of the two channel contexts. -/
def legalChannel (ch : Nibble) : Bool := ch.toNat < 2

/-- `IDX` names one of the two history cells (R154, R155). -/
def legalCell (idx : Nibble) : Bool := idx.toNat < 2

/-- A block length of 1 to 14 samples (R140). -/
def legalLength (len : Nibble) : Bool := 1 ≤ len.toNat && len.toNat ≤ 14

/-- The frame's header selects one of the eight pairs (R61). -/
def legalFrame (frame : Frame) : Bool := frame[0].toNat / 16 < 8

/-- An LPC sequence length below 2^31 (R99). -/
def legalCount (n : Word) : Bool := n.toNat < 2 ^ 31

/-- Every operand of the instruction is legal. -/
def Instr.wellFormed : Instr → Bool
  | .nop => true
  | .softReset => true
  | .nibDec _ => true
  | .nibEnc _ => true
  | .coefWr ch _ _ => legalChannel ch
  | .coefRd ch _ => legalChannel ch
  | .histWr ch idx _ => legalChannel ch && legalCell idx
  | .histRd ch idx => legalChannel ch && legalCell idx
  | .passStart ch => legalChannel ch
  | .decFrame ch frame => legalChannel ch && legalFrame frame
  | .encBlock ch len _ => legalChannel ch && legalLength len
  | .lpcStart ch n => legalChannel ch && legalCount n
  | .lpcSample ch _ => legalChannel ch
  | .lpcSolve ch => legalChannel ch

end Sys2Proof
end

