-- ==== Sys2Proof/Decode.lean ====
section
/-! DEFINITION. The encodings of 30_encoding.md: the opcode table (R66, R67), the fields of a command word (R64),
the packing of bytes and samples into words (20_memory.md R49, R65), packet framing (R66), the decoder, which is
total and rejects by name (R68, R69), and after it the encoder, written from the same table. -/

namespace Sys2Proof

/-! ## The opcode table -/

/-- Every operation, in the table's order. -/
def Op.all : List Op :=
  [.nop, .softReset, .nibDec, .nibEnc, .coefWr, .coefRd, .histWr, .histRd,
   .passStart, .decFrame, .encBlock, .lpcStart, .lpcSample, .lpcSolve]

/-- The `OPC` value of an operation (R66, R67 column `match`). -/
def Op.code : Op → Byte
  | .nop => 0x00#8
  | .softReset => 0x01#8
  | .nibDec => 0x10#8
  | .nibEnc => 0x11#8
  | .coefWr => 0x20#8
  | .coefRd => 0x21#8
  | .histWr => 0x22#8
  | .histRd => 0x23#8
  | .passStart => 0x30#8
  | .decFrame => 0x31#8
  | .encBlock => 0x41#8
  | .lpcStart => 0x50#8
  | .lpcSample => 0x51#8
  | .lpcSolve => 0x52#8

/-- The must-be-zero mask over the command word (R67). -/
def Op.mbz : Op → Word
  | .nop => 0x00FFFFFF#32
  | .softReset => 0x00FFFFFF#32
  | .nibDec => 0x00FFFFF0#32
  | .nibEnc => 0x00FFFF00#32
  | .coefWr => 0x00000000#32
  | .coefRd => 0x0000FFFF#32
  | .histWr => 0x00000000#32
  | .histRd => 0x0000FFFF#32
  | .passStart => 0x00F0FFFF#32
  | .decFrame => 0x00F0FFFF#32
  | .encBlock => 0x0000FFFF#32
  | .lpcStart => 0x00F0FFFF#32
  | .lpcSample => 0x00F00000#32
  | .lpcSolve => 0x00F0FFFF#32

/-- How many payload words follow the command word (R66). -/
def Op.payloadWords : Op → Nat
  | .decFrame => 2
  | .encBlock => 7
  | .lpcStart => 1
  | .nop | .softReset | .nibDec | .nibEnc | .coefWr | .coefRd | .histWr | .histRd
  | .passStart | .lpcSample | .lpcSolve => 0

/-- How many words a fault-free execution pushes (R66). -/
def Op.responseWords : Op → Nat
  | .nibDec | .nibEnc | .coefRd | .histRd => 1
  | .decFrame => 7
  | .encBlock => 2
  | .nop | .softReset | .coefWr | .histWr | .passStart | .lpcStart | .lpcSample | .lpcSolve => 0

/-- The operation an `OPC` value selects, none for the 242 illegal values (R68). -/
def Op.ofCode (c : Byte) : Option Op := Op.all.find? (fun o => o.code == c)

/-- The table row of an instruction. -/
def Instr.op : Instr → Op
  | .nop => .nop
  | .softReset => .softReset
  | .nibDec _ => .nibDec
  | .nibEnc _ => .nibEnc
  | .coefWr _ _ _ => .coefWr
  | .coefRd _ _ => .coefRd
  | .histWr _ _ _ => .histWr
  | .histRd _ _ => .histRd
  | .passStart _ => .passStart
  | .decFrame _ _ => .decFrame
  | .encBlock _ _ _ => .encBlock
  | .lpcStart _ _ => .lpcStart
  | .lpcSample _ _ => .lpcSample
  | .lpcSolve _ => .lpcSolve

/-! ## The fields of a command word (R64) -/

/-- `OPC = w[31:24]`. -/
def opcField (w : Word) : Byte := w.extractLsb' 24 8

/-- `IDX = w[23:20]`. -/
def idxField (w : Word) : Nibble := w.extractLsb' 20 4

/-- `CH = w[19:16]`. -/
def chField (w : Word) : Nibble := w.extractLsb' 16 4

/-- `IMM = w[15:0]`. -/
def immField (w : Word) : I16 := w.extractLsb' 0 16

/-- The command word with these four fields. -/
def commandWord (opc : Byte) (idx ch : Nibble) (imm : I16) : Word := opc ++ idx ++ ch ++ imm

/-! ## Packing of bytes and samples into words (R49, R65) -/

/-- Byte `m` (0..3) of a word, byte 0 in the least significant bits. -/
def byteOf (w : Word) (m : Nat) : Byte := w.extractLsb' (8 * m) 8

/-- Half `m` (0..1) of a word, half 0 in the least significant bits. -/
def halfOf (w : Word) (m : Nat) : I16 := w.extractLsb' (16 * m) 16

/-- `{b3, b2, b1, b0}`: the first byte in the least significant bits. -/
def packBytes (b0 b1 b2 b3 : Byte) : Word := b3 ++ b2 ++ b1 ++ b0

/-- `{s1, s0}`: the earlier sample in the least significant bits. -/
def packHalves (s0 s1 : I16) : Word := s1 ++ s0

/-- `Payload[j]`; a packet that is complete has every word asked for. -/
def payloadAt (payload : List Word) (j : Nat) : Word := payload.getD j 0

/-- Frame byte `j` is `Payload[j/4][8*(j mod 4)+7 : 8*(j mod 4)]` (R65). -/
def frameByte (payload : List Word) (j : Nat) : Byte := byteOf (payloadAt payload (j / 4)) (j % 4)

/-- Sample `j` is `Payload[j/2][16*(j mod 2)+15 : 16*(j mod 2)]` (R65). -/
def sampleAt (payload : List Word) (j : Nat) : I16 := halfOf (payloadAt payload (j / 2)) (j % 2)

/-- The eight frame bytes of a `DEC_FRAME` payload. -/
def frameOf (payload : List Word) : Frame :=
  #v[frameByte payload 0, frameByte payload 1, frameByte payload 2, frameByte payload 3,
     frameByte payload 4, frameByte payload 5, frameByte payload 6, frameByte payload 7]

/-- The fourteen samples of an `ENC_BLOCK` payload. -/
def blockOf (payload : List Word) : Block :=
  #v[sampleAt payload 0, sampleAt payload 1, sampleAt payload 2, sampleAt payload 3,
     sampleAt payload 4, sampleAt payload 5, sampleAt payload 6, sampleAt payload 7,
     sampleAt payload 8, sampleAt payload 9, sampleAt payload 10, sampleAt payload 11,
     sampleAt payload 12, sampleAt payload 13]

/-- The two words that carry a frame (R49). -/
def frameWords (f : Frame) : List Word :=
  [packBytes f[0] f[1] f[2] f[3], packBytes f[4] f[5] f[6] f[7]]

/-- The seven words that carry a block of fourteen samples (R49). -/
def blockWords (b : Block) : List Word :=
  [packHalves b[0] b[1], packHalves b[2] b[3], packHalves b[4] b[5], packHalves b[6] b[7],
   packHalves b[8] b[9], packHalves b[10] b[11], packHalves b[12] b[13]]

/-! ## Framing and decoding -/

/-- The number of words of the packet whose command word is `w`: one, and the payload of its `OPC`; one for an
illegal `OPC` (R66, R68). -/
def packetLen (w : Word) : Nat :=
  match Op.ofCode (opcField w) with
  | some op => 1 + op.payloadWords
  | none => 1

/-- Cut the first packet off a stream of words; none while it is incomplete (20_memory.md R44, R45). -/
def splitPacket : List Word → Option (List Word × List Word)
  | [] => none
  | w :: ws =>
    if packetLen w ≤ (w :: ws).length then
      some ((w :: ws).take (packetLen w), (w :: ws).drop (packetLen w))
    else none

/-- The operands of a command word whose `OPC` and must-be-zero bits have been checked (R65, R67). -/
def Op.operands (op : Op) (w : Word) (payload : List Word) : Instr :=
  match op with
  | .nop => .nop
  | .softReset => .softReset
  | .nibDec => .nibDec ((immField w).extractLsb' 0 4)
  | .nibEnc => .nibEnc ((immField w).extractLsb' 0 8)
  | .coefWr => .coefWr (chField w) (idxField w) (immField w)
  | .coefRd => .coefRd (chField w) (idxField w)
  | .histWr => .histWr (chField w) (idxField w) (immField w)
  | .histRd => .histRd (chField w) (idxField w)
  | .passStart => .passStart (chField w)
  | .decFrame => .decFrame (chField w) (frameOf payload)
  | .encBlock => .encBlock (chField w) (idxField w) (blockOf payload)
  | .lpcStart => .lpcStart (chField w) (payloadAt payload 0)
  | .lpcSample => .lpcSample (chField w) (immField w)
  | .lpcSolve => .lpcSolve (chField w)

/-- Decode a packet given as its command word and its payload: the first two checks of R195, then the operands. -/
def decode (w : Word) (payload : List Word) : Decoded :=
  match Op.ofCode (opcField w) with
  | none => .reject .illegalOpcode
  | some op => if w &&& op.mbz = 0#32 then .instr (op.operands w payload) else .reject .reservedField

/-- Decode a packet given as its list of words. The empty list is no packet (`splitPacket` never gives one); it
decodes as the word 0, `NOP`, would. -/
def decodeWords : List Word → Decoded
  | [] => decode 0#32 []
  | w :: payload => decode w payload

/-! ## The encoder -/

/-- The command word of an instruction (R67, R71). -/
def Instr.command : Instr → Word
  | .nop => commandWord Op.nop.code 0 0 0
  | .softReset => commandWord Op.softReset.code 0 0 0
  | .nibDec u => commandWord Op.nibDec.code 0 0 (u.setWidth 16)
  | .nibEnc b => commandWord Op.nibEnc.code 0 0 (b.setWidth 16)
  | .coefWr ch idx v => commandWord Op.coefWr.code idx ch v
  | .coefRd ch idx => commandWord Op.coefRd.code idx ch 0
  | .histWr ch idx v => commandWord Op.histWr.code idx ch v
  | .histRd ch idx => commandWord Op.histRd.code idx ch 0
  | .passStart ch => commandWord Op.passStart.code 0 ch 0
  | .decFrame ch _ => commandWord Op.decFrame.code 0 ch 0
  | .encBlock ch len _ => commandWord Op.encBlock.code len ch 0
  | .lpcStart ch _ => commandWord Op.lpcStart.code 0 ch 0
  | .lpcSample ch x => commandWord Op.lpcSample.code 0 ch x
  | .lpcSolve ch => commandWord Op.lpcSolve.code 0 ch 0

/-- The payload words of an instruction (R49, R71). -/
def Instr.payload : Instr → List Word
  | .decFrame _ frame => frameWords frame
  | .encBlock _ _ samples => blockWords samples
  | .lpcStart _ n => [n]
  | .nop | .softReset | .nibDec _ | .nibEnc _ | .coefWr _ _ _ | .coefRd _ _ | .histWr _ _ _ | .histRd _ _
  | .passStart _ | .lpcSample _ _ | .lpcSolve _ => []

/-- The packet of an instruction: its command word, then its payload (R64). -/
def encode (i : Instr) : List Word := i.command :: i.payload

/-! ## The words of the opcode table -/

/-- The longest packet has eight words (`ENC_BLOCK`, R66). -/
def longestPacket : Nat := 8

/-- The words of the number `w` of `nbits` bits, bit 0 the least significant bit of the first word, as many as the
longest packet has; the bits above `nbits` are 0. -/
def tableWords (nbits w : Nat) : List Word :=
  (List.range longestPacket).map fun k => BitVec.ofNat 32 ((w % 2 ^ nbits) / 2 ^ (32 * k))

/-- The packet at the head of `tableWords`. -/
def tablePacket (nbits w : Nat) : List Word :=
  match splitPacket (tableWords nbits w) with
  | some (packet, _) => packet
  | none => tableWords nbits w

/-- The instruction the decoder reads from an instruction numbered as the opcode table numbers it. -/
def decodeTableWord (nbits w : Nat) : Option Instr :=
  match decodeWords (tablePacket nbits w) with
  | .instr i => some i
  | .reject _ => none

end Sys2Proof
end

