-- ==== Sys2Proof/Machine/State.lean ====
section
/-! DEFINITION. The state of the block (10_state.md), plain data, and its value after reset (R32). The last three
fields of `State` are the host's part: the spec calls the command stream an input owned by the host (R29), and the
model holds it and the host's moves as data so that one deterministic step covers both agents (log entry 1). -/

namespace Sys2Proof.Machine

/-- The three autocorrelation sums of one segment, `LPC_R[c][k][0..2]`, unbounded integers (R25, R7 `LPC_ACC_W`). -/
structure LagSums where
  r0 : Int
  r1 : Int
  r2 : Int
  deriving DecidableEq, Repr

/-- The sums of an empty segment. -/
def LagSums.zero : LagSums := { r0 := 0, r1 := 0, r2 := 0 }

/-- A channel context: everything indexed by `[c]` (R20, R22, R25). -/
structure Channel where
  /-- `COEF[c][0..15]`: pair `k` is elements `2k` and `2k + 1` (R20) -/
  coef : Vector I16 16
  /-- `HIST1[c]`: the most recent sample (R22) -/
  hist1 : I16
  /-- `HIST2[c]`: the sample before it (R22) -/
  hist2 : I16
  /-- `LPC_ARMED[c]` -/
  lpcArmed : Bool
  /-- `LPC_N[c]`: the declared length -/
  lpcN : U31
  /-- `LPC_CNT[c]`: the samples received so far -/
  lpcCnt : U31
  /-- `LPC_P1[c]`: the previous sample inside the segment -/
  lpcP1 : I16
  /-- `LPC_P2[c]`: the one before it -/
  lpcP2 : I16
  /-- `LPC_R[c][0..7]` -/
  lpcR : Vector LagSums 8
  deriving DecidableEq, Repr

/-- The reset values of a channel context (R32). -/
def Channel.reset : Channel :=
  { coef := Vector.replicate 16 0#16, hist1 := 0#16, hist2 := 0#16, lpcArmed := false, lpcN := 0#31, lpcCnt := 0#31,
    lpcP1 := 0#16, lpcP2 := 0#16, lpcR := Vector.replicate 8 LagSums.zero }

/-- `STATUS` (R26): the fields `FAULT` and `CAUSE`. -/
structure Status where
  /-- `STATUS[0]` -/
  fault : Bool
  /-- `STATUS[4:1]` -/
  cause : BitVec 4
  deriving DecidableEq, Repr

/-- `STATUS` after reset (R32). -/
def Status.reset : Status := { fault := false, cause := 0#4 }

/-- The cause codes of R191. -/
inductive Cause where
  | illegalOpcode | reservedField | badChannel | badIndex | coefIndex | lpcSequence | lpcLength
  deriving DecidableEq, Repr

/-- One entry of the schedule of host and block (45_host_container.md R184; log entry 1). -/
inductive Turn where
  /-- the block's turn: it executes the next packet, or waits -/
  | block
  /-- the host presents more words on the command stream -/
  | present (words : List Word)
  /-- the host stops presenting the words not yet transferred -/
  | withdraw
  /-- a cycle of the response port with `rsp_ready = 1` -/
  | takeRsp
  /-- a cycle with `rst_n = 0` -/
  | reset
  deriving DecidableEq, Repr

/-- The block and, in the last three fields, its host. -/
structure State where
  /-- the two channel contexts (R20 to R25) -/
  chans : Vector Channel 2
  /-- `STATUS` (R26) -/
  status : Status
  /-- `RSPQ`, oldest word first (R28) -/
  rspq : List Word
  /-- `PKTBUF`: the transferred words of an incomplete packet (R29) -/
  pktbuf : List Word
  /-- the stream index: how many words the packets executed since reset had (R27) -/
  pos : Nat
  /-- the command words the host presents and the block has not taken, in order (R29) -/
  pending : List Word
  /-- the response words the host has taken, oldest first (R41) -/
  taken : List Word
  /-- whose turn it is from here on; the block's, once the list is empty -/
  script : List Turn
  deriving DecidableEq, Repr

/-- The machine after `rst_n` (R32, R212), with a host that has presented nothing. -/
def State.reset : State :=
  { chans := Vector.replicate 2 Channel.reset, status := Status.reset, rspq := [], pktbuf := [], pos := 0,
    pending := [], taken := [], script := [] }

/-- How a run ends: nobody has a move left (70_reset_and_hazards.md R221). Raised by `step` alone, never by an
operation; each is safe, since the real block waits there and does nothing. An operation that cannot execute takes
the fault entry of R193 instead, which is a next state. -/
inductive Fault where
  /-- the block waits for a command word and the host has none: "finished" (R221); safe -/
  | finished
  /-- the block waits for the rest of an incomplete packet: "stuck" (R45, R221); safe -/
  | stuck
  /-- `STATUS.FAULT = 1`: no packet executes until `rst_n` (R193, R221 "faulted"); safe -/
  | faulted
  deriving DecidableEq, Repr

/-- Why the model gives an instruction no meaning. -/
inductive Refusal where
  /-- an arm of `exec` not written yet; no arm of this model raises it; safe -/
  | notModelled (mnemonic : String)
  deriving DecidableEq, Repr

/-- What one operation or one step answers. -/
abbrev Result := Host.Outcome State Fault Refusal

end Sys2Proof.Machine
end

