-- ==== Sys2Proof/Machine/Flags.lean ====
section
/-! DEFINITION. `STATUS`, the block's only flag register (10_state.md R26): the cause codes and the register's word.
There are no condition codes; saturation sets nothing (R26, R199). -/

namespace Sys2Proof.Machine

/-- The code of a cause (60_exceptions.md R191). -/
def Cause.code : Cause → BitVec 4
  | .illegalOpcode => 1#4
  | .reservedField => 2#4
  | .badChannel => 3#4
  | .badIndex => 4#4
  | .coefIndex => 5#4
  | .lpcSequence => 6#4
  | .lpcLength => 7#4

/-- `STATUS` once a fault with this cause has been taken (R193). -/
def Status.faulted (c : Cause) : Status := { fault := true, cause := c.code }

/-- `STATUS` as one word: `FAULT` is bit 0, `CAUSE` bits 4:1 (R26). -/
def Status.word (st : Status) : BitVec 5 := st.cause ++ BitVec.ofBool st.fault

/-- The cause of a packet the decoder rejects (R191, R195 steps 1 and 2). -/
def rejectCause : Reject → Cause
  | .illegalOpcode => .illegalOpcode
  | .reservedField => .reservedField

end Sys2Proof.Machine
end

