-- ==== Sys2Proof/Config.lean ====
section
/-! DEFINITION. The parameters of 00_scope.md R7 that a rule computes with. The parameters R7 leaves OPEN
(`RSP_DEPTH`, clock frequency, latencies, and R46's `BUS_WRAPPER`) enter no rule and so no definition. The spec
leaves no value of any operation open (R56), so there is no opaque constant here. -/

namespace Sys2Proof.Config

/-- `NCH`: the number of channel contexts. -/
abbrev nch : Nat := 2

/-- `COEF_FRAC`: the fraction bits of a coefficient. -/
abbrev coefFrac : Nat := 11

/-- `ROUND_BIAS`: half the resolution of the final right shift. -/
abbrev roundBias : Int := 1024

/-- The number of exponents the encoder tries: 0 .. `ENC_EXP_MAX` = 15. -/
abbrev encExponents : Nat := 16

/-- `LPC_SEGMENTS`: one analysis segment per coefficient pair. -/
abbrev lpcSegments : Nat := 8

/-- `FRAME_SAMPLES`: the samples of one frame. -/
abbrev frameSamples : Nat := 14

/-- `NEUTRAL`: the pair of a degenerate predictor (R93). -/
abbrev neutral : Int × Int := (0, 0)

end Sys2Proof.Config
end

