-- ==== Sys2Proof/Machine/Operands.lean ====
section
/-! DEFINITION. Numbers and operands: the arithmetic primitives of 00_scope.md R10 to R13 over unbounded integers,
and the reads and writes of a channel's numbered registers (COEF elements and pairs, history cells). -/

namespace Sys2Proof.Machine

/-! ## Arithmetic (00_scope.md R10 to R13) -/

/-- `clamp(v, lo, hi)` (R12). -/
def clamp (v lo hi : Int) : Int := if v < lo then lo else if v > hi then hi else v

/-- `clamp16(v)`: saturation to the `int16` range (R12). -/
def clamp16 (v : Int) : Int := clamp v (-32768) 32767

/-- `a >>a k`: the floor of `a / 2^k` (R11). -/
def asr (a : Int) (k : Nat) : Int := a / 2 ^ k

/-- `rdiv(a, b)`: `a / b` rounded to the nearest integer, a tie toward plus infinity, for `b > 0` (R13). -/
def rdiv (a b : Int) : Int := (2 * a + b) / (2 * b)

/-- `ceil(a / b)` for natural numbers, `b > 0` (R13). -/
def ceilDiv (a b : Nat) : Nat := (a + b - 1) / b

/-- `pat_16(v)` (R10). -/
def pat16 (v : Int) : I16 := BitVec.ofInt 16 v

/-- `zext_32(v)` of a 16-bit pattern (R10). -/
def zext32 (v : I16) : Word := v.setWidth 32

/-! ## The registers of a channel -/

/-- A coefficient pair `(coef1, coef2)` as integers. -/
abbrev Pair := Int × Int

/-- The eight pairs of a table as integers: pair `k` is elements `2k` and `2k + 1` (R20). -/
def Channel.pair (ch : Channel) (k : Fin 8) : Pair :=
  ((ch.coef[2 * k.val]'(by omega)).toInt, (ch.coef[2 * k.val + 1]'(by omega)).toInt)

/-- `COEF[c][i]`, `i = IDX` (R152, R153). -/
def Channel.readCoef (ch : Channel) (idx : Nibble) : I16 := ch.coef[idx.toNat]'idx.isLt

/-- `COEF[c][i] <- v`, `i = IDX` (R152). -/
def Channel.writeCoef (ch : Channel) (idx : Nibble) (v : I16) : Channel :=
  { ch with coef := ch.coef.set idx.toNat v idx.isLt }

/-- A history cell, 0 = `HIST1`, 1 = `HIST2` (R155). -/
def Channel.readHist (ch : Channel) (cell : Fin 2) : I16 := if cell = 0 then ch.hist1 else ch.hist2

/-- Write a history cell, 0 = `HIST1`, 1 = `HIST2` (R154). -/
def Channel.writeHist (ch : Channel) (cell : Fin 2) (v : I16) : Channel :=
  if cell = 0 then { ch with hist1 := v } else { ch with hist2 := v }

/-- Write both history cells with integers in the `int16` range (R116, R138). -/
def Channel.writeHistory (ch : Channel) (h1 h2 : Int) : Channel :=
  { ch with hist1 := pat16 h1, hist2 := pat16 h2 }

/-- The sixteen elements of a table, pair after pair, `coef1` first (R20, R90). -/
def tableOf (pair : Fin 8 → Pair) : Vector I16 16 :=
  #v[pat16 (pair 0).1, pat16 (pair 0).2, pat16 (pair 1).1, pat16 (pair 1).2, pat16 (pair 2).1, pat16 (pair 2).2,
     pat16 (pair 3).1, pat16 (pair 3).2, pat16 (pair 4).1, pat16 (pair 4).2, pat16 (pair 5).1, pat16 (pair 5).2,
     pat16 (pair 6).1, pat16 (pair 6).2, pat16 (pair 7).1, pat16 (pair 7).2]

end Sys2Proof.Machine
end

