-- ==== Sys2Proof/Machine/Ops.lean ====
section
/-! DEFINITION. The shared operations: access to a channel context, the response queue, taking a fault
(60_exceptions.md R193) and the operand checks that take one (R195), the two resets (R151, R210), and the host's
moves (45_host_container.md R184). -/

namespace Sys2Proof.Machine

/-! ## Channel contexts and the response queue -/

/-- The context of channel `c`. -/
def State.chan (s : State) (c : Fin 2) : Channel := s.chans[c.val]

/-- Replace the context of channel `c`; the other one stays (20_memory.md R52). -/
def State.setChan (s : State) (c : Fin 2) (ch : Channel) : State := { s with chans := s.chans.set c.val ch }

/-- `RspPush` of each word in order (00_scope.md R15, R28, R51). -/
def State.push (s : State) (words : List Word) : State := { s with rspq := s.rspq ++ words }

/-! ## Taking a fault, and the only way out -/

/-- Fault entry (R193): `STATUS` is written and nothing else changes. -/
def State.takeFault (s : State) (c : Cause) : State := { s with status := Status.faulted c }

/-- An operation that fails a check: the next state is the fault entry (R193, R194). -/
def raiseFault (c : Cause) (s : State) : Result := .next (s.takeFault c)

/-- `rst_n` low for a cycle (70_reset_and_hazards.md R210): every register, `STATUS`, `RSPQ`, `PKTBUF` and the stream
index take their reset values. It is the only exit from the fault state (R196). The host's part is the host's and
stays. -/
def State.hardReset (s : State) : State :=
  { State.reset with pending := s.pending, taken := s.taken, script := s.script }

/-- `SOFT_RESET` (R151): the registers of both channels; `STATUS` and `RSPQ` stay. -/
def State.clearChannels (s : State) : State := { s with chans := Vector.replicate 2 Channel.reset }

/-! ## The operand checks (R195 steps 3 and 4) -/

/-- Check 3: go on with the channel `CH` names, or take `BAD_CHANNEL`. -/
def withChannel (ch : Nibble) (s : State) (k : Fin 2 → Result) : Result :=
  if h : ch.toNat < 2 then k ⟨ch.toNat, h⟩ else raiseFault .badChannel s

/-- Check 4 of `HIST_WR` and `HIST_RD`: go on with the history cell `IDX` names, or take `BAD_INDEX`. -/
def withCell (idx : Nibble) (s : State) (k : Fin 2 → Result) : Result :=
  if h : idx.toNat < 2 then k ⟨idx.toNat, h⟩ else raiseFault .badIndex s

/-- Check 4 of `ENC_BLOCK`: go on with a block length of 1 to 14, or take `BAD_INDEX`. -/
def withLength (len : Nibble) (s : State) (k : Nat → Result) : Result :=
  if len.toNat = 0 ∨ len.toNat = 15 then raiseFault .badIndex s else k len.toNat

/-! ## The host's moves -/

/-- A transfer on the response port (20_memory.md R41): the head of `RSPQ` goes to the host; with an empty queue
`rsp_valid = 0` and nothing is transferred. -/
def State.takeResponse (s : State) : State :=
  match s.rspq with
  | [] => s
  | w :: ws => { s with rspq := ws, taken := s.taken ++ [w] }

/-- The host presents more words behind those it presents already. -/
def State.present (s : State) (words : List Word) : State := { s with pending := s.pending ++ words }

/-- The host stops presenting the words the block has not taken. -/
def State.withdraw (s : State) : State := { s with pending := [] }

end Sys2Proof.Machine
end

