-- ==== Sys2Proof/Machine/Control.lean ====
section
/-! DEFINITION. The control and register-access operations (44_control_ops.md). -/

namespace Sys2Proof.Machine

/-- `NOP` (R150): no effect. -/
def execNop (s : State) : Result := .next s

/-- `SOFT_RESET` (R151). -/
def execSoftReset (s : State) : Result := .next s.clearChannels

/-- `COEF_WR cN, #i, #v` (R152). -/
def execCoefWr (ch idx : Nibble) (v : I16) (s : State) : Result :=
  withChannel ch s fun c => .next (s.setChan c ((s.chan c).writeCoef idx v))

/-- `COEF_RD cN, #i` (R153). -/
def execCoefRd (ch idx : Nibble) (s : State) : Result :=
  withChannel ch s fun c => .next (s.push [zext32 ((s.chan c).readCoef idx)])

/-- `HIST_WR cN, #i, #v` (R154). -/
def execHistWr (ch idx : Nibble) (v : I16) (s : State) : Result :=
  withChannel ch s fun c => withCell idx s fun cell => .next (s.setChan c ((s.chan c).writeHist cell v))

/-- `HIST_RD cN, #i` (R155). -/
def execHistRd (ch idx : Nibble) (s : State) : Result :=
  withChannel ch s fun c => withCell idx s fun cell => .next (s.push [zext32 ((s.chan c).readHist cell)])

end Sys2Proof.Machine
end

