-- ==== Sys2Proof/Machine/Codec.lean ====
section
/-! DEFINITION. The nibble codec (40_nibble_codec.md). -/

namespace Sys2Proof.Machine

/-- `NibDec(u) = sext_4(u)` (R80). -/
def nibDec (u : Nibble) : Int := u.toInt

/-- `NibEnc(s) = s mod 16`, the low four bits of the two's-complement pattern (R81). -/
def nibEnc (v : Int) : Nibble := BitVec.ofInt 4 v

/-- `zext_32(pat_8(v))`: a signed byte in a response word, the sign not extended beyond bit 7 (R84). -/
def byteResponse (v : Int) : Word := (BitVec.ofInt 8 v).setWidth 32

/-- `NIB_DEC #u` (R84). -/
def execNibDec (u : Nibble) (s : State) : Result := .next (s.push [byteResponse (nibDec u)])

/-- `NIB_ENC #b` (R85). -/
def execNibEnc (b : Byte) (s : State) : Result := .next (s.push [(nibEnc b.toInt).setWidth 32])

end Sys2Proof.Machine
end

