-- ==== Sys2Proof/Machine/Decoder.lean ====
section
/-! DEFINITION. The ADPCM decoder (42_decoder.md). -/

namespace Sys2Proof.Machine

/-! ## The functions -/

/-- `scale = 1 << exp` (R110). -/
def scaleOf (exp : Nat) : Int := 2 ^ exp

/-- `predicted = coef1*hist1 + coef2*hist2` (R112). -/
def predict (pair : Pair) (h1 h2 : Int) : Int := pair.1 * h1 + pair.2 * h2

/-- `acc = ((n * scale) << 11) + 1024 + predicted`, exact (R112, R117). -/
def accumulate (pair : Pair) (h1 h2 n : Int) (exp : Nat) : Int :=
  n * scaleOf exp * 2 ^ Config.coefFrac + Config.roundBias + predict pair h1 h2

/-- `DecodeSample` (R112): the shifted accumulator, then saturation. -/
def decodeSample (pair : Pair) (h1 h2 n : Int) (exp : Nat) : Int :=
  clamp16 (asr (accumulate pair h1 h2 n exp) Config.coefFrac)

/-- `exp = b0[3:0]` (R110). -/
def frameExp (f : Frame) : Nat := (f[0].extractLsb' 0 4).toNat

/-- `coefIndex = b0[7:4]` (R110). -/
def frameIndex (f : Frame) : Nat := (f[0].extractLsb' 4 4).toNat

/-- The two nibbles of a data byte, the high one first (R111). -/
def byteNibbles (b : Byte) : List Nibble := [b.extractLsb' 4 4, b.extractLsb' 0 4]

/-- The fourteen residual patterns of a frame in sample order (R111). -/
def frameNibbles (f : Frame) : List Nibble :=
  byteNibbles f[1] ++ byteNibbles f[2] ++ byteNibbles f[3] ++ byteNibbles f[4] ++ byteNibbles f[5] ++
    byteNibbles f[6] ++ byteNibbles f[7]

/-- Decode residuals one after another, each from the history the previous one left; the samples and the history at
the end, newest first (R114, R115). -/
def decodeResiduals (pair : Pair) (exp : Nat) : Int → Int → List Int → List Int × Int × Int
  | h1, h2, [] => ([], h1, h2)
  | h1, h2, n :: ns =>
    let y := decodeSample pair h1 h2 n exp
    let rest := decodeResiduals pair exp y h1 ns
    (y :: rest.1, rest.2)

/-- `DecodeFrame` with the frame's pair already selected (R115). -/
def decodeFrame (pair : Pair) (h1 h2 : Int) (f : Frame) : List Int × Int × Int :=
  decodeResiduals pair (frameExp f) h1 h2 ((frameNibbles f).map nibDec)

/-- Samples two by two into response words, the earlier one in the low half (20_memory.md R49). -/
def packSamples : List Int → List Word
  | s0 :: s1 :: rest => packHalves (pat16 s0) (pat16 s1) :: packSamples rest
  | [_] => []
  | [] => []

/-- `DecodePass` (R120) for a table `T`: the frames in order, the history threaded through them, cut to `numSamples`.
A frame whose index selects no pair ends the pass there, as its `DEC_FRAME` faults (R119;
log entry 14). -/
def decodeFrames (table : Fin 8 → Pair) : Int → Int → List Frame → List Int
  | _, _, [] => []
  | h1, h2, f :: fs =>
    if h : frameIndex f < 8 then
      let r := decodeFrame (table ⟨frameIndex f, h⟩) h1 h2 f
      r.1 ++ decodeFrames table r.2.1 r.2.2 fs
    else []

/-- `DecodePass(T, F, numSamples)` (R120). -/
def decodePass (table : Fin 8 → Pair) (frames : List Frame) (numSamples : Nat) : List Int :=
  (decodeFrames table 0 0 frames).take numSamples

/-! ## The operations -/

/-- `PASS_START cN` (R118). -/
def execPassStart (ch : Nibble) (s : State) : Result :=
  withChannel ch s fun c => .next (s.setChan c ((s.chan c).writeHistory 0 0))

/-- The effect of `DEC_FRAME` once its checks have passed: the history and the seven response words (R119). -/
def decodeInto (c : Fin 2) (k : Fin 8) (f : Frame) (s : State) : State :=
  let ch := s.chan c
  let r := decodeFrame (ch.pair k) ch.hist1.toInt ch.hist2.toInt f
  (s.setChan c (ch.writeHistory r.2.1 r.2.2)).push (packSamples r.1)

/-- `DEC_FRAME cN, [b0 .. b7]` (R119). -/
def execDecFrame (ch : Nibble) (f : Frame) (s : State) : Result :=
  withChannel ch s fun c =>
    if h : frameIndex f < 8 then .next (decodeInto c ⟨frameIndex f, h⟩ f s) else raiseFault .coefIndex s

end Sys2Proof.Machine
end

