-- ==== Sys2Proof/Machine/Encoder.lean ====
section
/-! DEFINITION. The ADPCM encoder (43_encoder.md). -/

namespace Sys2Proof.Machine

/-! ## The functions -/

/-- `p = (predicted + 1024) >>a 11`: the rounded prediction (R133). -/
def roundedPrediction (pair : Pair) (h1 h2 : Int) : Int :=
  asr (predict pair h1 h2 + Config.roundBias) Config.coefFrac

/-- The quantiser (R133): the residual over the scale, to the nearest integer, saturated to a nibble. -/
def quantise (pair : Pair) (h1 h2 : Int) (exp : Nat) (t : Int) : Int :=
  clamp (rdiv (t - roundedPrediction pair h1 h2) (scaleOf exp)) (-8) 7

/-- The squared difference of a target and its reconstruction (R134). -/
def squaredError (t y : Int) : Int := (t - y) * (t - y)

/-- `Trial` (R134) over the targets that remain: the error sum and the quantised residuals. The reconstructed samples
are threaded as history (R132). -/
def trial (pair : Pair) (exp : Nat) : Int → Int → List Int → Int × List Int
  | _, _, [] => (0, [])
  | h1, h2, t :: ts =>
    let q := quantise pair h1 h2 exp t
    let y := decodeSample pair h1 h2 q exp
    let rest := trial pair exp y h1 ts
    (squaredError t y + rest.1, q :: rest.2)

/-- A finished trial of one coefficient index and one exponent. -/
structure Candidate where
  err : Int
  idx : Fin 8
  exp : Fin 16
  residuals : List Int
  deriving DecidableEq, Repr

/-- One trial as a candidate. -/
def candidate (table : Fin 8 → Pair) (h1 h2 : Int) (targets : List Int) (idx : Fin 8) (exp : Fin 16) : Candidate :=
  let r := trial (table idx) exp.val h1 h2 targets
  { err := r.1, idx := idx, exp := exp, residuals := r.2 }

/-- The search space in order, index-major, but for the first candidate `(0, 0)` (R135). -/
def laterChoices : List (Fin 8 × Fin 16) :=
  ((List.finRange 8).flatMap fun idx => (List.finRange Config.encExponents).map fun exp => (idx, exp)).tail

/-- The better of the best so far and a later candidate: the later one only if its error is strictly less (R135). -/
def better (best cand : Candidate) : Candidate := if cand.err < best.err then cand else best

/-- The search (R135): least error, then lowest index, then lowest exponent. -/
def bestCandidate (table : Fin 8 → Pair) (h1 h2 : Int) (targets : List Int) : Candidate :=
  laterChoices.foldl (fun best choice => better best (candidate table h1 h2 targets choice.1 choice.2))
    (candidate table h1 h2 targets 0 0)

/-- Two residuals in a data byte, the earlier one in the high nibble (R137). -/
def packResiduals (q0 q1 : Int) : Byte := nibEnc q0 ++ nibEnc q1

/-- Frame assembly (R137). A trial has fourteen residuals, so `getD` never meets its default. -/
def assembleFrame (c : Candidate) : Frame :=
  let q := fun j => c.residuals.getD j 0
  #v[BitVec.ofNat 4 c.idx.val ++ BitVec.ofNat 4 c.exp.val,
     packResiduals (q 0) (q 1), packResiduals (q 2) (q 3), packResiduals (q 4) (q 5), packResiduals (q 6) (q 7),
     packResiduals (q 8) (q 9), packResiduals (q 10) (q 11), packResiduals (q 12) (q 13)]

/-- The frame of `EncodeBlock` (R139). -/
def encodeFrame (table : Fin 8 → Pair) (h1 h2 : Int) (targets : List Int) : Frame :=
  assembleFrame (bestCandidate table h1 h2 targets)

/-- The targets of a block: the samples, with positions `len` and above taken as 0 (R131, R140). -/
def paddedTargets (len : Nat) (samples : Block) : List Int :=
  (samples.toList.map BitVec.toInt).take len ++ List.replicate (Config.frameSamples - len) 0

/-- The blocks of `EncodePass`: fourteen targets each, the last one padded with zeros (R130, R131, R141). -/
def targetBlocks (xs : List Int) : List (List Int) :=
  (List.range (ceilDiv xs.length 14)).map fun i =>
    let block := (xs.drop (14 * i)).take 14
    block ++ List.replicate (14 - block.length) 0

/-- The frames of consecutive blocks, the actual targets of a block carried as history to the next (R138, R141). -/
def encodeBlocks (table : Fin 8 → Pair) : Int → Int → List (List Int) → List Frame
  | _, _, [] => []
  | h1, h2, t :: ts => encodeFrame table h1 h2 t :: encodeBlocks table (t.getD 13 0) (t.getD 12 0) ts

/-- `EncodePass(T, x)` (R141). -/
def encodePass (table : Fin 8 → Pair) (xs : List Int) : List Frame := encodeBlocks table 0 0 (targetBlocks xs)

/-! ## The operation -/

/-- The effect of `ENC_BLOCK` once its checks have passed: the frame's two words are pushed and the history becomes
the last two targets (R138, R140). -/
def encodeInto (c : Fin 2) (len : Nat) (samples : Block) (s : State) : State :=
  let ch := s.chan c
  let t := paddedTargets len samples
  (s.setChan c (ch.writeHistory (t.getD 13 0) (t.getD 12 0))).push
    (frameWords (encodeFrame ch.pair ch.hist1.toInt ch.hist2.toInt t))

/-- `ENC_BLOCK cN, {s0, .., s(len-1)}` (R140). -/
def execEncBlock (ch len : Nibble) (samples : Block) (s : State) : Result :=
  withChannel ch s fun c => withLength len s fun n => .next (encodeInto c n samples s)

end Sys2Proof.Machine
end

