-- ==== Sys2Proof/Machine/Lpc.lean ====
section
/-! DEFINITION. The LPC solver (41_lpc_solver.md). -/

namespace Sys2Proof.Machine

/-! ## The functions -/

/-- `Seg(i, N) = floor((8*i + 7) / N)` for `i < N` (R95); it is below 8 there, so the wrap of `Fin.ofNat` never
bites. -/
def segmentOf (i n : Nat) : Fin 8 := Fin.ofNat 8 ((8 * i + 7) / n)

/-- `det = R0*R0 - R1*R1` (R97). -/
def LagSums.det (r : LagSums) : Int := r.r0 * r.r0 - r.r1 * r.r1

/-- The pair of one segment (R97, R98): neutral if the system is degenerate, else the quantised solution. -/
def solvePair (r : LagSums) : Pair :=
  if r.det ≤ 0 then Config.neutral
  else (clamp16 (rdiv (2048 * r.r1 * (r.r0 - r.r2)) r.det), clamp16 (rdiv (2048 * (r.r0 * r.r2 - r.r1 * r.r1)) r.det))

/-- The sum of the products of two lists, position by position, over the shorter of the two. -/
def dot (xs ys : List Int) : Int := (List.zipWith (· * ·) xs ys).sum

/-- The sums of R96 over the samples of one segment: lags 0, 1 and 2 inside the window. -/
def lagSums (xs : List Int) : LagSums := { r0 := dot xs xs, r1 := dot (xs.drop 1) xs, r2 := dot (xs.drop 2) xs }

/-- The samples of segment `k`: `floor(k*N/8) <= i < floor((k+1)*N/8)` (R95). -/
def segmentSamples (xs : List Int) (k : Fin 8) : List Int :=
  (xs.drop (k.val * xs.length / 8)).take ((k.val + 1) * xs.length / 8 - k.val * xs.length / 8)

/-- `LpcSolve(x)` in closed form (R98). -/
def lpcSolve (xs : List Int) (k : Fin 8) : Pair := solvePair (lagSums (segmentSamples xs k))

/-! ## The operations -/

/-- The channel after `LPC_START` with length `n` (R99). -/
def Channel.lpcArm (ch : Channel) (n : U31) : Channel :=
  { ch with lpcArmed := true, lpcN := n, lpcCnt := 0#31, lpcP1 := 0#16, lpcP2 := 0#16,
            lpcR := Vector.replicate 8 LagSums.zero }

/-- The segment of the sample the channel receives next (R100). -/
def Channel.lpcSegment (ch : Channel) : Fin 8 := segmentOf ch.lpcCnt.toNat ch.lpcN.toNat

/-- The sample the channel receives next is the first one of its segment (R100). -/
def Channel.lpcFirst (ch : Channel) : Bool :=
  ch.lpcCnt.toNat = 0 || segmentOf (ch.lpcCnt.toNat - 1) ch.lpcN.toNat ≠ ch.lpcSegment

/-- The window `(p1, p2)` for the sample the channel receives next: zeros at a segment's start (R100). -/
def Channel.lpcWindow (ch : Channel) : I16 × I16 := if ch.lpcFirst then (0#16, 0#16) else (ch.lpcP1, ch.lpcP2)

/-- Accumulate the three products of a sample and its window (R100). -/
def LagSums.accumulate (r : LagSums) (x p1 p2 : Int) : LagSums :=
  { r0 := r.r0 + x * x, r1 := r.r1 + x * p1, r2 := r.r2 + x * p2 }

/-- The channel after one more sample (R100). -/
def Channel.lpcReceive (ch : Channel) (x : I16) : Channel :=
  let k := ch.lpcSegment
  let w := ch.lpcWindow
  { ch with lpcR := ch.lpcR.set k.val (ch.lpcR[k.val].accumulate x.toInt w.1.toInt w.2.toInt),
            lpcP1 := x, lpcP2 := w.1, lpcCnt := ch.lpcCnt + 1#31 }

/-- The channel after `LPC_SOLVE`: all sixteen coefficients written, disarmed (R101). -/
def Channel.lpcFinish (ch : Channel) : Channel :=
  { ch with coef := tableOf (fun k => solvePair ch.lpcR[k.val]), lpcArmed := false }

/-- `LPC_START cN, #n` (R99). -/
def execLpcStart (ch : Nibble) (n : Word) (s : State) : Result :=
  withChannel ch s fun c =>
    if n.toNat < 2 ^ 31 then .next (s.setChan c ((s.chan c).lpcArm (n.setWidth 31))) else raiseFault .lpcLength s

/-- `LPC_SAMPLE cN, #x` (R100). -/
def execLpcSample (ch : Nibble) (x : I16) (s : State) : Result :=
  withChannel ch s fun c =>
    if (s.chan c).lpcArmed = true ∧ (s.chan c).lpcCnt < (s.chan c).lpcN then
      .next (s.setChan c ((s.chan c).lpcReceive x))
    else raiseFault .lpcSequence s

/-- `LPC_SOLVE cN` (R101). -/
def execLpcSolve (ch : Nibble) (s : State) : Result :=
  withChannel ch s fun c =>
    if (s.chan c).lpcArmed = true ∧ (s.chan c).lpcCnt = (s.chan c).lpcN then .next (s.setChan c (s.chan c).lpcFinish)
    else raiseFault .lpcSequence s

end Sys2Proof.Machine
end

