-- ==== Sys2Proof/Machine/Dispatch.lean ====
section
/-! DEFINITION. One arm per operation. -/

namespace Sys2Proof.Machine

def exec (i : Instr) (s : State) : Host.Outcome State Fault Refusal :=
  match i with
  | .nop => Sys2Proof.Machine.execNop s
  | .softReset => Sys2Proof.Machine.execSoftReset s
  | .nibDec u => Sys2Proof.Machine.execNibDec u s
  | .nibEnc b => Sys2Proof.Machine.execNibEnc b s
  | .coefWr ch idx v => Sys2Proof.Machine.execCoefWr ch idx v s
  | .coefRd ch idx => Sys2Proof.Machine.execCoefRd ch idx s
  | .histWr ch idx v => Sys2Proof.Machine.execHistWr ch idx v s
  | .histRd ch idx => Sys2Proof.Machine.execHistRd ch idx s
  | .passStart ch => Sys2Proof.Machine.execPassStart ch s
  | .decFrame ch frame => Sys2Proof.Machine.execDecFrame ch frame s
  | .encBlock ch len samples => Sys2Proof.Machine.execEncBlock ch len samples s
  | .lpcStart ch n => Sys2Proof.Machine.execLpcStart ch n s
  | .lpcSample ch x => Sys2Proof.Machine.execLpcSample ch x s
  | .lpcSolve ch => Sys2Proof.Machine.execLpcSolve ch s

end Sys2Proof.Machine
end

