-- ==== Sys2Proof/Machine/Fetch.lean ====
section
/-! DEFINITION. How a packet comes from the command port to the decoder (20_memory.md R43 to R45), and who moves
when (log entry 1). -/

namespace Sys2Proof.Machine

/-- What the block's turn does before any operation runs. -/
inductive Fetched where
  /-- a complete packet, decoded; the state has it consumed -/
  | packet (d : Decoded) (s : State)
  /-- words were transferred into `PKTBUF` and the packet is still incomplete -/
  | partly (s : State)
  /-- no word can be transferred: the stream is empty, or `cmd_ready = 0` for ever -/
  | idle
  deriving DecidableEq, Repr

/-- The state with the packet consumed: the stream index moves past it, `PKTBUF` is empty (R27, R44). -/
def State.consume (s : State) (packet rest : List Word) : State :=
  { s with pos := s.pos + packet.length, pktbuf := [], pending := rest }

/-- Transfer words until a packet is complete or the stream is empty. In the fault state `cmd_ready = 0` and no word
is transferred (60_exceptions.md R193). -/
def fetch (s : State) : Fetched :=
  if s.status.fault then .idle
  else
    match splitPacket (s.pktbuf ++ s.pending) with
    | some (packet, rest) => .packet (decodeWords packet) (s.consume packet rest)
    | none => if s.pending = [] then .idle else .partly { s with pktbuf := s.pktbuf ++ s.pending, pending := [] }

/-- How the run has ended when neither the host nor the block has a move (70_reset_and_hazards.md R221). -/
def endOfRun (s : State) : Fault :=
  if s.status.fault then .faulted else if s.pktbuf = [] then .finished else .stuck

/-- A move of the host. -/
def hostMove (t : Turn) (s : State) : State :=
  match t with
  | .block => s
  | .present words => s.present words
  | .withdraw => s.withdraw
  | .takeRsp => s.takeResponse
  | .reset => s.hardReset

end Sys2Proof.Machine
end

