-- ==== Sys2Proof/Machine/Step.lean ====
section
/-! DEFINITION. One step: a move of the host, or the block's turn (execute the next packet, or wait). -/

namespace Sys2Proof.Machine

/-- The block's turn; `waiting` is the answer when it can transfer no word. -/
def blockTurn (s : State) (waiting : Result) : Result :=
  match fetch s with
  | .packet (.instr i) t => exec i t
  | .packet (.reject r) t => raiseFault (rejectCause r) t
  | .partly t => .next t
  | .idle => waiting

/-- One step. With an empty schedule it is the block's turn, and the run has ended if the
block cannot move (log entry 3); a scheduled turn at which it cannot move passes (log entry 13). -/
def step (s : State) : Host.Outcome State Fault Refusal :=
  match s.script with
  | [] => blockTurn s (.fault (endOfRun s))
  | .block :: turns => blockTurn { s with script := turns } (.next { s with script := turns })
  | t :: turns => .next (hostMove t { s with script := turns })

/-- `s` with the packet of the table word at the head of the command stream, the packet buffer empty and the block
to move, so that the next step executes exactly that packet (log entry 8). -/
def State.withFetchWord (s : State) (nbits w : Nat) : State :=
  { s with pktbuf := [], pending := tablePacket nbits w ++ s.pending, script := .block :: s.script }

end Sys2Proof.Machine
end

