-- ==== Sys2Proof/Machine/Ports.lean ====
section
/-! DEFINITION. The block's ports as functions of the state (20_memory.md R41, R42), in the cycle of the move that
comes next: the pins the host drives, which the schedule settles (log entry 15), and the block's outputs. The model has
no clock; a transfer on a port is a step (log entries 2 and 9). What the outputs show in the cycle of a reset: log
entry 16. -/

namespace Sys2Proof.Machine

/-! ## Inputs -/

/-- The pin `rst_n` in the cycle of the next move: 0 exactly when the host asserts it (R41, 70_reset_and_hazards.md
R210). -/
def State.rstN (s : State) : Bool := s.script.head? != some .reset

/-- `cmd_valid` (R41): 1 when it is the block's turn (the schedule is empty or that turn is its head) and a word is
pending. DESIGN CHOICE (log entry 15): at a move of the host it counts as 0, whatever is pending, and so no command word
is transferred in that step. -/
def State.cmdValid (s : State) : Bool :=
  (s.script.head?.getD .block == .block) && !s.pending.isEmpty

/-- `cmd_data` (R41): the first pending word; none while `cmd_valid = 0`. -/
def State.cmdData (s : State) : Option Word := if s.cmdValid then s.pending.head? else none

/-- `rsp_ready` (R41): 1 when the next move is the host's taking a response. DESIGN CHOICE (log entry 15): at any other
move it counts as 0. -/
def State.rspReady (s : State) : Bool := s.script.head? == some .takeRsp

/-! ## Outputs -/

/-- `cmd_ready`: 0 while `rst_n = 0` (R210) and for ever in the fault state (R193); with an unbounded `RSPQ` the block
never holds a word back otherwise (R51). At a move of the host it may be 1 with words pending: none is transferred then,
because `cmd_valid` counts as 0 (DESIGN CHOICE, log entry 15). DESIGN CHOICE (log entry 16): at the host's reset it is 0
already in the state the reset starts from. -/
def State.cmdReady (s : State) : Bool := s.rstN && !s.status.fault

/-- `rsp_valid`: 0 while `rst_n = 0` (R210), else the block presents the head of `RSPQ` (R41). DESIGN CHOICE (log entry
16): at the host's reset it is 0 already in the state the reset starts from. -/
def State.rspValid (s : State) : Bool := s.rstN && !s.rspq.isEmpty

/-- `rsp_data`: the head of `RSPQ`; none while `rsp_valid = 0`, when the spec gives the port no value (R41). -/
def State.rspData (s : State) : Option Word := if s.rspValid then s.rspq.head? else none

/-- `fault_o = STATUS.FAULT` (R42), the `STATUS` of the state the next move starts from. DESIGN CHOICE (log entry 16):
when that move is the host's reset, this is still the old `STATUS`, beside `cmd_ready = 0` and `rsp_valid = 0`;
`fault_o = 0` (R210) holds in the state the reset leaves. -/
def State.faultO (s : State) : Bool := s.status.fault

/-- `cause_o = STATUS.CAUSE` (R42), with the `STATUS` that `fault_o` shows. DESIGN CHOICE (log entry 16): at the host's
reset the old `STATUS`, and 0 (R210) in the state the reset leaves. -/
def State.causeO (s : State) : BitVec 4 := s.status.cause

end Sys2Proof.Machine
end

