-- ==== Sys2Proof/Machine/Pseudo.lean ====
section
/-! DEFINITION. The five pseudo-operations of 30_encoding.md R72 as lists of instructions, and the execution of a
list of instructions one after another. -/

namespace Sys2Proof.Machine

/-- Execute instructions in order; once a fault is taken nothing more executes (60_exceptions.md R193). -/
def execAll : List Instr → State → Result
  | [], s => .next s
  | i :: rest, s =>
    if s.status.fault then .next s
    else
      match exec i s with
      | .next t => execAll rest t
      | .fault f => .fault f
      | .refused r => .refused r

/-- The `CH` field of channel `c`. -/
def channelField (c : Fin 2) : Nibble := BitVec.ofNat 4 c.val

/-- `COEF_LOAD cN, {v0, .., v15}` (R72). -/
def coefLoad (c : Fin 2) (v : Vector I16 16) : List Instr :=
  (List.finRange 16).map fun i => .coefWr (channelField c) (BitVec.ofNat 4 i.val) v[i.val]

/-- `LPC_DERIVE cN, {x0, .., x(n-1)}` (R72). -/
def lpcDerive (c : Fin 2) (xs : List I16) : List Instr :=
  .lpcStart (channelField c) (BitVec.ofNat 32 xs.length) ::
    (xs.map (.lpcSample (channelField c)) ++ [.lpcSolve (channelField c)])

/-- `DECODE_PASS cN, frames` (R72). -/
def decodePassOps (c : Fin 2) (frames : List Frame) : List Instr :=
  .passStart (channelField c) :: frames.map (.decFrame (channelField c))

/-- Up to fourteen samples as the operand of `ENC_BLOCK`, the positions behind them 0 (R71). -/
def blockFrom (xs : List I16) : Block :=
  #v[xs.getD 0 0, xs.getD 1 0, xs.getD 2 0, xs.getD 3 0, xs.getD 4 0, xs.getD 5 0, xs.getD 6 0,
     xs.getD 7 0, xs.getD 8 0, xs.getD 9 0, xs.getD 10 0, xs.getD 11 0, xs.getD 12 0, xs.getD 13 0]

/-- The samples of block `i` of a pass: fourteen, or what is left (R72, R141). -/
def passBlock (xs : List I16) (i : Nat) : List I16 := (xs.drop (14 * i)).take 14

/-- `ENCODE_PASS cN, {x0, .., x(n-1)}` (R72, R141). -/
def encodePassOps (c : Fin 2) (xs : List I16) : List Instr :=
  .passStart (channelField c) ::
    (List.range (ceilDiv xs.length 14)).map fun i =>
      .encBlock (channelField c) (BitVec.ofNat 4 (passBlock xs i).length) (blockFrom (passBlock xs i))

/-- `HIST_SET cN, #h1, #h2` (R72). -/
def histSet (c : Fin 2) (h1 h2 : I16) : List Instr :=
  [.histWr (channelField c) 0 h1, .histWr (channelField c) 1 h2]

end Sys2Proof.Machine
end

