-- ==== Sys2Proof/Safety.lean ====
section
/-! DEFINITION. The vocabulary of the statements: what a legal status, a bounded accumulator and a good state are,
which packet comes next, and the check order of 60_exceptions.md R195 read off the raw words. -/

namespace Sys2Proof

/-- The channel operand of an instruction (30_encoding.md R67, column `CH use`). -/
def Instr.channel : Instr → Option Nibble
  | .nop | .softReset | .nibDec _ | .nibEnc _ => none
  | .coefWr ch _ _ | .coefRd ch _ | .histWr ch _ _ | .histRd ch _ | .passStart ch | .decFrame ch _
  | .encBlock ch _ _ | .lpcStart ch _ | .lpcSample ch _ | .lpcSolve ch => some ch

/-- Does an operation have a channel operand (R67)? -/
def Op.hasChannel : Op → Bool
  | .nop | .softReset | .nibDec | .nibEnc => false
  | .coefWr | .coefRd | .histWr | .histRd | .passStart | .decFrame | .encBlock | .lpcStart | .lpcSample
  | .lpcSolve => true

end Sys2Proof

namespace Sys2Proof.Machine

/-! ## Good states -/

/-- The legal values of `STATUS` (10_state.md R26): cause 0 without a fault, a cause of 1 to 7 with one. -/
abbrev Status.Legal (st : Status) : Prop :=
  (st.fault = false ∧ st.cause = 0#4) ∨ (st.fault = true ∧ 1 ≤ st.cause.toNat ∧ st.cause.toNat ≤ 7)

/-- Every sum of the segment is at most `m * 2^30` in magnitude (41_lpc_solver.md R104). -/
abbrev LagSums.Within (r : LagSums) (m : Nat) : Prop :=
  (r.r0 ≤ m * 2 ^ 30 ∧ -(m * 2 ^ 30) ≤ r.r0) ∧ (r.r1 ≤ m * 2 ^ 30 ∧ -(m * 2 ^ 30) ≤ r.r1) ∧
    (r.r2 ≤ m * 2 ^ 30 ∧ -(m * 2 ^ 30) ≤ r.r2)

/-- The LPC registers of a channel: the count has not passed the length (R25), and a sum has at most one product per
sample received (R104). -/
abbrev Channel.LpcBounded (ch : Channel) : Prop :=
  ch.lpcCnt ≤ ch.lpcN ∧ ∀ k : Fin 8, (ch.lpcR[k.val]).Within ch.lpcCnt.toNat

/-- `PKTBUF` holds the words of one incomplete packet, and none in the fault state (10_state.md R29, R193). -/
abbrev State.BufferPartial (s : State) : Prop :=
  splitPacket s.pktbuf = none ∧ (s.status.fault = true → s.pktbuf = [])

/-- The invariant of the block. -/
abbrev State.Inv (s : State) : Prop :=
  s.status.Legal ∧ s.BufferPartial ∧ ∀ c : Fin 2, (s.chan c).LpcBounded

/-! ## The next packet -/

/-- It is the block's turn, with the schedule `turns` behind it: the schedule is empty, or the turn stands at its head
(log entry 1). -/
abbrev State.BlocksTurn (s : State) (turns : List Turn) : Prop :=
  (s.script = [] ∧ turns = []) ∨ s.script = .block :: turns

/-- The first packet of the words in `PKTBUF` and on the stream is `packet`, with `rest` behind it; the block has not
faulted and it is its turn, with `turns` behind it. -/
abbrev State.NextPacket (s : State) (packet rest : List Word) (turns : List Turn) : Prop :=
  s.status.fault = false ∧ s.BlocksTurn turns ∧ splitPacket (s.pktbuf ++ s.pending) = some (packet, rest)

/-- The fourteen `OPC` values of R66 as numbers, in the table's order. -/
def legalOpcodes : List (Nat × Op) :=
  [(0x00, .nop), (0x01, .softReset), (0x10, .nibDec), (0x11, .nibEnc), (0x20, .coefWr), (0x21, .coefRd),
   (0x22, .histWr), (0x23, .histRd), (0x30, .passStart), (0x31, .decFrame), (0x41, .encBlock), (0x50, .lpcStart),
   (0x51, .lpcSample), (0x52, .lpcSolve)]

/-- Checks 4 and 5 of R195 for a channel that exists, on the `IDX` field, the payload and the channel's registers. -/
def operandCheck (op : Op) (idx : Nat) (payload : List Word) (ch : Channel) : Option Cause :=
  match op with
  | .histWr | .histRd => if 2 ≤ idx then some .badIndex else none
  | .encBlock => if idx = 0 ∨ idx = 15 then some .badIndex else none
  | .decFrame => if 8 ≤ (payloadAt payload 0).toNat / 16 % 16 then some .coefIndex else none
  | .lpcStart => if 2 ^ 31 ≤ (payloadAt payload 0).toNat then some .lpcLength else none
  | .lpcSample => if ch.lpcArmed = false ∨ ch.lpcN.toNat ≤ ch.lpcCnt.toNat then some .lpcSequence else none
  | .lpcSolve => if ch.lpcArmed = false ∨ ch.lpcCnt.toNat ≠ ch.lpcN.toNat then some .lpcSequence else none
  | .nop | .softReset | .nibDec | .nibEnc | .coefWr | .coefRd | .passStart => none

/-- The first failing check of R195 for the packet `w :: payload`, none if it passes them all. -/
def firstFailedCheck (s : State) (w : Word) (payload : List Word) : Option Cause :=
  match legalOpcodes.lookup (w.toNat / 2 ^ 24) with
  | none => some .illegalOpcode
  | some op =>
    if w &&& op.mbz ≠ 0#32 then some .reservedField
    else if op.hasChannel = true ∧ 2 ≤ w.toNat / 2 ^ 16 % 16 then some .badChannel
    else operandCheck op (w.toNat / 2 ^ 20 % 16) payload (s.chan (Fin.ofNat 2 (w.toNat / 2 ^ 16 % 16)))

end Sys2Proof.Machine
end

