-- ==== Sys2Proof/Certificates/Slice0/Obligations.lean ====
section
/-! DEFINITION. What the model claims of the block. Each statement's docstring names the rule of spec/ it comes from.
The statements speak of `exec` (one operation), `step` (one packet or one move of the host) and the pure functions.
A statement about `exec` on a channel says `ch.toNat = c.val`: the `CH` field names channel `c`. -/

open Sys2Proof Sys2Proof.Machine

/-! ## Encodings -/

/-- 30_encoding.md R64 to R67: the decoder reads from an instruction's packet that instruction, at every operand
value its fields can hold. -/
def Obligations.EncodedInstructionDecodesBack : Prop := ∀ i : Instr, decodeWords (encode i) = .instr i

/-- R64 to R67, R69: a packet that decodes is the packet of what it decodes to: no bit of it is dropped. -/
def Obligations.DecodedPacketEncodesBack : Prop :=
  ∀ (stream packet rest : List Word) (i : Instr),
    splitPacket stream = some (packet, rest) → decodeWords packet = .instr i → encode i = packet

/-- R66, 20_memory.md R44, R45: the packet of an instruction has one word and the payload of its table row; framing
cuts exactly it off a stream, and nothing while one of its words is missing. -/
def Obligations.FramingCutsOnePacket : Prop :=
  ∀ (i : Instr) (rest : List Word),
    (encode i).length = 1 + i.op.payloadWords ∧
    splitPacket (encode i ++ rest) = some (encode i, rest) ∧
    ∀ n, n < (encode i).length → splitPacket ((encode i).take n) = none

/-- 30_encoding.md R65, R71, the example words of the operation rules (R150, R84, R152, R154, R119, R140, R99, R100),
at least one of each family: written out by the spec. -/
def Obligations.ExampleWordsDecode : Prop :=
  decode 0x00000000 [] = .instr .nop ∧
  decode 0x1000000F [] = .instr (.nibDec 15) ∧
  decode 0x20117FFF [] = .instr (.coefWr 1 1 0x7FFF) ∧
  decode 0x22117FFF [] = .instr (.histWr 1 1 0x7FFF) ∧
  decode 0x31000000 [0xFF111110, 0x008070FF] =
    .instr (.decFrame 0 #v[0x10, 0x11, 0x11, 0xFF, 0xFF, 0x70, 0x80, 0x00]) ∧
  decode 0x41E00000 [0x00020001, 0x00040003, 0x00060005, 0xFFF80007, 0xFFFAFFF9, 0xFFFCFFFB, 0xFFFEFFFD] =
    .instr (.encBlock 0 14 #v[1, 2, 3, 4, 5, 6, 7, -8, -7, -6, -5, -4, -3, -2]) ∧
  decode 0x50010000 [0x0000000E] = .instr (.lpcStart 1 14) ∧
  decode 0x5100FFFE [] = .instr (.lpcSample 0 0xFFFE)

/-- R68: exactly 14 of the 256 `OPC` values are legal, 0x40 is not; an illegal one is a packet of one word and the
block faults with cause 1. -/
def Obligations.IllegalOpcodeFaults : Prop :=
  (∀ c : Byte, Op.ofCode c = none ↔ c.toNat ∉ legalOpcodes.map Prod.fst) ∧
  ((List.range 256).filter fun c => c ∉ legalOpcodes.map Prod.fst).length = 242 ∧
  Op.ofCode 0x40 = none ∧
  ∀ (s : State) (w : Word) (rest : List Word) (turns : List Turn),
    s.status.fault = false → s.BlocksTurn turns → s.pktbuf ++ s.pending = w :: rest →
    w.toNat / 2 ^ 24 ∉ legalOpcodes.map Prod.fst →
    step s = .next { s with status := { fault := true, cause := 1 }, pos := s.pos + 1, pktbuf := [], pending := rest,
                            script := turns }

/-- R69: a 1 in a must-be-zero bit of a legal `OPC` faults with cause 2, the whole packet consumed; and no bit of a
command word is ignored: two command words that decode to the same instruction are equal. -/
def Obligations.ReservedFieldFaults : Prop :=
  (∀ (s : State) (w : Word) (payload rest : List Word) (turns : List Turn) (op : Op),
    s.NextPacket (w :: payload) rest turns → (w.toNat / 2 ^ 24, op) ∈ legalOpcodes → w &&& op.mbz ≠ 0#32 →
    step s = .next { s with status := { fault := true, cause := 2 }, pos := s.pos + (1 + payload.length),
                            pktbuf := [], pending := rest, script := turns }) ∧
  ∀ (w w' : Word) (payload payload' : List Word) (i : Instr),
    decode w payload = .instr i → decode w' payload' = .instr i → w = w'

/-- R66: a fault-free execution pushes as many response words as the operation's table row says, behind those already
queued. -/
def Obligations.ResponseCountFollowsTheTable : Prop :=
  ∀ (i : Instr) (s t : State),
    s.status.fault = false → exec i s = .next t → t.status.fault = false →
    ∃ words, t.rspq = s.rspq ++ words ∧ words.length = i.op.responseWords

/-! ## One step -/

/-- 20_memory.md R43, R44, 10_state.md R27: when the words waiting form a complete packet that decodes to `i`, the
step is `exec i` with the packet consumed and the stream index moved past it. `script` is the model's schedule of
host and block (log entry 1): the block moves when it is empty or its head says so. -/
def Obligations.StepExecutesTheNextPacket : Prop :=
  ∀ (s : State) (packet rest : List Word) (i : Instr),
    s.status.fault = false → splitPacket (s.pktbuf ++ s.pending) = some (packet, rest) →
    decodeWords packet = .instr i →
    (s.script = [] →
      step s = exec i { s with pos := s.pos + packet.length, pktbuf := [], pending := rest }) ∧
    ∀ turns, s.script = .block :: turns →
      step s = exec i { s with pos := s.pos + packet.length, pktbuf := [], pending := rest, script := turns }

/-- 20_memory.md R45: an incomplete packet has no effect but that its words wait in the packet buffer; the block then
waits, with `cmd_ready = 1`: a scheduled turn passes, and with no host move left the run is stuck. The transfer as one
step, the stuck run's answer and the passing turn are the model's (log entries 2, 3 and 13); the queue is unbounded
(log entry 4). -/
def Obligations.IncompletePacketHasNoEffect : Prop :=
  ∀ (s : State) (turns : List Turn), s.status.fault = false → s.BlocksTurn turns → s.pktbuf ++ s.pending ≠ [] →
    splitPacket (s.pktbuf ++ s.pending) = none →
    (s.pending ≠ [] →
      step s = .next { s with pktbuf := s.pktbuf ++ s.pending, pending := [], script := turns }) ∧
    (s.pending = [] → s.script = .block :: turns → step s = .next { s with script := turns }) ∧
    (s.pending = [] → s.script = [] → step s = .fault .stuck) ∧
    s.cmdReady = true

/-- 70_reset_and_hazards.md R221: a run ends exactly when the schedule is empty and the block can move no further, in
exactly one of the three ways; a scheduled turn of the block in the same situation passes without an effect. That an
end is answered as a fault outcome and that such a turn passes are the model's (log entries 3 and 13). -/
def Obligations.RunEndsInOneOfThreeWays : Prop :=
  (∀ (s : State) (f : Fault), step s = .fault f ↔
    s.script = [] ∧
    ((f = .faulted ∧ s.status.fault = true) ∨
     (f = .finished ∧ s.status.fault = false ∧ s.pending = [] ∧ s.pktbuf = []) ∨
     (f = .stuck ∧ s.status.fault = false ∧ s.pending = [] ∧ s.pktbuf ≠ [] ∧ splitPacket s.pktbuf = none))) ∧
  ∀ (s : State) (turns : List Turn), s.script = .block :: turns →
    (s.status.fault = true ∨
     (s.status.fault = false ∧ s.pending = [] ∧ s.pktbuf = []) ∨
     (s.status.fault = false ∧ s.pending = [] ∧ s.pktbuf ≠ [] ∧ splitPacket s.pktbuf = none)) →
    step s = .next { s with script := turns }

/-- R221, R224: with a finite stream and no further move of the host, the run ends, after at most two
steps more than there are words. The count in steps and the end as a fault outcome are the model's (log entries 2 and
3). -/
def Obligations.FiniteStreamRunEnds : Prop :=
  ∀ s : State, s.script = [] →
    ∃ f, Host.Core.run core (s.pktbuf.length + s.pending.length + 2) s = .fault f

/-- 20_memory.md R51: but for `rst_n`, a step only appends to the sequence of response words delivered and queued:
none is dropped, duplicated or reordered. 45_host_container.md R184: presenting and withdrawing command words reaches
nothing of the block: the step only changes the words presented (the two moves are the model's, log entry 1). -/
def Obligations.ResponsesStayInOrder : Prop :=
  (∀ s t : State, s.script.head? ≠ some .reset → step s = .next t →
    ∃ words, t.taken ++ t.rspq = s.taken ++ s.rspq ++ words) ∧
  (∀ (s : State) (words : List Word) (turns : List Turn), s.script = .present words :: turns →
    step s = .next { s with pending := s.pending ++ words, script := turns }) ∧
  ∀ (s : State) (turns : List Turn), s.script = .withdraw :: turns →
    step s = .next { s with pending := [], script := turns }

/-- 20_memory.md R41, R43: a transfer on the response port removes the head word of `RSPQ` and nothing else; with an
empty queue nothing is transferred. -/
def Obligations.ResponseTransferTakesTheHead : Prop :=
  ∀ (s : State) (turns : List Turn), s.script = .takeRsp :: turns →
    (∀ w ws, s.rspq = w :: ws →
      s.rspData = some w ∧ step s = .next { s with rspq := ws, taken := s.taken ++ [w], script := turns }) ∧
    (s.rspq = [] → s.rspValid = false ∧ step s = .next { s with script := turns })

/-! ## Faults and reset -/

/-- 60_exceptions.md R195: the first failing check of a complete packet gives the cause, and the fault entry changes
`STATUS` only, the packet consumed; a packet that passes all checks executes without a fault. The codes are those of
R191. -/
def Obligations.CheckOrderGivesTheCause : Prop :=
  (Cause.illegalOpcode.code = 1 ∧ Cause.reservedField.code = 2 ∧ Cause.badChannel.code = 3 ∧
    Cause.badIndex.code = 4 ∧ Cause.coefIndex.code = 5 ∧ Cause.lpcSequence.code = 6 ∧ Cause.lpcLength.code = 7) ∧
  (∀ (s : State) (w : Word) (payload rest : List Word) (turns : List Turn), s.NextPacket (w :: payload) rest turns →
    (∀ c, firstFailedCheck s w payload = some c →
      step s = .next { s with status := { fault := true, cause := c.code }, pos := s.pos + (1 + payload.length),
                              pktbuf := [], pending := rest, script := turns }) ∧
    (firstFailedCheck s w payload = none → ∃ t, step s = .next t ∧ t.status = s.status)) ∧
  ∀ s : State, firstFailedCheck s 0x31350007 [0x00000080, 0x00000000] = some .reservedField ∧
    firstFailedCheck s 0x22790000 [] = some .badChannel

/-- 60_exceptions.md R194: an operation either leaves `STATUS` alone or does nothing but write it. -/
def Obligations.FaultingOperationWritesStatusOnly : Prop :=
  ∀ (i : Instr) (s : State),
    (∃ t, exec i s = .next t ∧ t.status = s.status) ∨
    ∃ c : Cause, exec i s = .next { s with status := { fault := true, cause := c.code } }

/-- 60_exceptions.md R193: in the fault state nothing of the block changes but by `rst_n`, and but for the response
words the host takes. With no host move left the run has ended (70_reset_and_hazards.md R221) and a scheduled turn of
the block passes: the answer of the end and the passing turn are the model's (log entries 3 and 13). -/
def Obligations.FaultStateIsFrozen : Prop :=
  ∀ s : State, s.status.fault = true →
    (s.script = [] → step s = .fault .faulted) ∧
    (∀ turns, s.script = .block :: turns → step s = .next { s with script := turns }) ∧
    s.cmdReady = false ∧
    ∀ t, s.script.head? ≠ some .reset → step s = .next t →
      t.chans = s.chans ∧ t.status = s.status ∧ t.pktbuf = s.pktbuf ∧ t.pos = s.pos ∧
      t.taken ++ t.rspq = s.taken ++ s.rspq

/-- 60_exceptions.md R197: once a fault is taken, `CAUSE` keeps its value over every run without `rst_n`. -/
def Obligations.FirstCauseIsTheOnlyOne : Prop :=
  ∀ (n : Nat) (s t : State), s.status.fault = true → Turn.reset ∉ s.script →
    Host.Core.run core n s = .next t → t.status = s.status

/-- 70_reset_and_hazards.md R210: a cycle of `rst_n` gives every state element of the block its reset value, in every
state, the fault state included, and no word is transferred. R210 has `cmd_ready = 0` and `rsp_valid = 0` in the cycles
in which `rst_n` is sampled 0; that both show 0 already in the state whose next move is `rst_n`, the placing of the
outputs in that cycle, is the model's (log entry 16), and so is that the host's own part stays (log entry 7). -/
def Obligations.HardResetClearsTheBlock : Prop :=
  ∀ (s : State) (turns : List Turn), s.script = .reset :: turns →
    s.cmdReady = false ∧ s.rspValid = false ∧
    step s = .next { State.reset with pending := s.pending, taken := s.taken, script := turns }

/-- 10_state.md R32, 44_control_ops.md R151, 70_reset_and_hazards.md R212: the reset values, and what `SOFT_RESET`
leaves of them; no packet executes while `FAULT = 1` (60_exceptions.md R193); after reset the block waits for a command
word. The stream index is the model's (log entry 6), and so are the end of a faulted run and the turn that passes in
the fault state (log entries 3 and 13). -/
def Obligations.ResetValuesOfTheTable : Prop :=
  (∀ c : Fin 2,
    (∀ i : Fin 16, (State.reset.chan c).coef[i.val] = 0#16) ∧
    (State.reset.chan c).hist1 = 0#16 ∧ (State.reset.chan c).hist2 = 0#16 ∧
    (State.reset.chan c).lpcArmed = false ∧ (State.reset.chan c).lpcN = 0#31 ∧ (State.reset.chan c).lpcCnt = 0#31 ∧
    (State.reset.chan c).lpcP1 = 0#16 ∧ (State.reset.chan c).lpcP2 = 0#16 ∧
    ∀ k : Fin 8, (State.reset.chan c).lpcR[k.val] = { r0 := 0, r1 := 0, r2 := 0 }) ∧
  State.reset.status = { fault := false, cause := 0#4 } ∧ State.reset.rspq = [] ∧ State.reset.pktbuf = [] ∧
  State.reset.pos = 0 ∧
  (∀ s : State, exec .softReset s = .next { s with chans := State.reset.chans }) ∧
  (∀ (s : State) (rest : List Word) (turns : List Turn), s.NextPacket [0x01000000] rest turns →
    step s = .next { s with chans := State.reset.chans, pos := s.pos + 1, pktbuf := [], pending := rest,
                            script := turns }) ∧
  (∀ (s : State) (turns : List Turn), s.status.fault = true →
    (s.script = [] → step s = .fault .faulted) ∧
    (s.script = .block :: turns → step s = .next { s with script := turns })) ∧
  State.reset.cmdReady = true ∧ State.reset.rspValid = false

/-! ## Traps of single operations -/

/-- 60_exceptions.md R191, code 3: every operation with a channel operand faults on `CH >= 2` and does nothing else. -/
def Obligations.MissingChannelFaults : Prop :=
  ∀ (i : Instr) (ch : Nibble) (s : State), i.channel = some ch → 2 ≤ ch.toNat →
    exec i s = .next { s with status := { fault := true, cause := 3 } }

/-- 60_exceptions.md R191, codes 4, 5, 6 and 7: the operand and sequence checks of the operations, on a channel that
exists. -/
def Obligations.OperandTraps : Prop :=
  ∀ (s : State) (ch : Nibble) (c : Fin 2), ch.toNat = c.val →
    (∀ (idx : Nibble) (v : I16), 2 ≤ idx.toNat →
      exec (.histWr ch idx v) s = .next { s with status := { fault := true, cause := 4 } } ∧
      exec (.histRd ch idx) s = .next { s with status := { fault := true, cause := 4 } }) ∧
    (∀ (len : Nibble) (b : Block), len.toNat = 0 ∨ len.toNat = 15 →
      exec (.encBlock ch len b) s = .next { s with status := { fault := true, cause := 4 } }) ∧
    (∀ f : Frame, 8 ≤ f[0].toNat / 16 →
      exec (.decFrame ch f) s = .next { s with status := { fault := true, cause := 5 } }) ∧
    (∀ x : I16, (s.chan c).lpcArmed = false ∨ (s.chan c).lpcN.toNat ≤ (s.chan c).lpcCnt.toNat →
      exec (.lpcSample ch x) s = .next { s with status := { fault := true, cause := 6 } }) ∧
    ((s.chan c).lpcArmed = false ∨ (s.chan c).lpcCnt.toNat ≠ (s.chan c).lpcN.toNat →
      exec (.lpcSolve ch) s = .next { s with status := { fault := true, cause := 6 } }) ∧
    ∀ n : Word, 2 ^ 31 ≤ n.toNat →
      exec (.lpcStart ch n) s = .next { s with status := { fault := true, cause := 7 } }

/-! ## Control and register access -/

/-- 44_control_ops.md R150: `NOP` does nothing; the word 0 is the only one that decodes to it, and any other word
with its `OPC` is a reserved-field fault. -/
def Obligations.NopDoesNothing : Prop :=
  (∀ s : State, exec .nop s = .next s) ∧
  (∀ (w : Word) (payload : List Word), decode w payload = .instr .nop ↔ w = 0#32) ∧
  ∀ (s : State) (w : Word) (rest : List Word) (turns : List Turn),
    s.status.fault = false → s.BlocksTurn turns → s.pktbuf ++ s.pending = w :: rest → w.toNat < 2 ^ 24 →
    (w = 0#32 → step s = .next { s with pos := s.pos + 1, pktbuf := [], pending := rest, script := turns }) ∧
    (w ≠ 0#32 → step s = .next { s with status := { fault := true, cause := 2 }, pos := s.pos + 1, pktbuf := [],
                                        pending := rest, script := turns })

/-- 44_control_ops.md R152: `COEF_WR` writes the element it names and nothing else. -/
def Obligations.CoefWriteSetsOneElement : Prop :=
  ∀ (s : State) (ch idx : Nibble) (v : I16) (c : Fin 2), ch.toNat = c.val →
    ∃ t, exec (.coefWr ch idx v) s = .next t ∧ t = { s with chans := t.chans } ∧
      (∀ d : Fin 2, t.chan d = { s.chan d with coef := (t.chan d).coef }) ∧
      ∀ (d : Fin 2) (j : Fin 16),
        (t.chan d).coef[j.val] = if d = c ∧ j.val = idx.toNat then v else (s.chan d).coef[j.val]

/-- 44_control_ops.md R153: `COEF_RD` pushes the element it names, zero-extended, and changes nothing else. -/
def Obligations.CoefReadPushesOneElement : Prop :=
  ∀ (s : State) (ch idx : Nibble) (c : Fin 2) (j : Fin 16), ch.toNat = c.val → idx.toNat = j.val →
    exec (.coefRd ch idx) s =
      .next { s with rspq := s.rspq ++ [BitVec.ofNat 32 ((s.chan c).coef[j.val]).toNat] }

/-- R152, R153, 20_memory.md R50: a `COEF_RD` right after a `COEF_WR` pushes the value written if both name the same
element of the same channel, else what the element held before. -/
def Obligations.CoefReadSeesTheLastWrite : Prop :=
  ∀ (s t : State) (ch idx ch' idx' : Nibble) (v : I16) (c' : Fin 2) (j' : Fin 16),
    ch.toNat < 2 → ch'.toNat = c'.val → idx'.toNat = j'.val → exec (.coefWr ch idx v) s = .next t →
    exec (.coefRd ch' idx') t =
      .next { t with rspq := s.rspq ++
        [BitVec.ofNat 32 (if ch' = ch ∧ idx' = idx then v else (s.chan c').coef[j'.val]).toNat] }

/-- 44_control_ops.md R154: `HIST_WR` writes the cell it names (0 is `HIST1`, 1 is `HIST2`) and nothing else. -/
def Obligations.HistWriteSetsOneCell : Prop :=
  ∀ (s : State) (ch idx : Nibble) (v : I16) (c : Fin 2), ch.toNat = c.val → idx.toNat < 2 →
    ∃ t, exec (.histWr ch idx v) s = .next t ∧ t = { s with chans := t.chans } ∧
      (∀ d, d ≠ c → t.chan d = s.chan d) ∧
      (idx = 0 → t.chan c = { s.chan c with hist1 := v }) ∧
      (idx = 1 → t.chan c = { s.chan c with hist2 := v })

/-- 44_control_ops.md R155: `HIST_RD` pushes the cell it names, zero-extended, and changes nothing else. -/
def Obligations.HistReadPushesOneCell : Prop :=
  ∀ (s : State) (ch : Nibble) (c : Fin 2), ch.toNat = c.val →
    exec (.histRd ch 0) s = .next { s with rspq := s.rspq ++ [BitVec.ofNat 32 (s.chan c).hist1.toNat] } ∧
    exec (.histRd ch 1) s = .next { s with rspq := s.rspq ++ [BitVec.ofNat 32 (s.chan c).hist2.toNat] }

/-- 30_encoding.md R72: `COEF_LOAD` leaves the sixteen values in the table, and changes nothing else. -/
def Obligations.CoefLoadLoadsTheTable : Prop :=
  ∀ (s : State) (c : Fin 2) (v : Vector I16 16), s.status.fault = false →
    ∃ t, execAll (coefLoad c v) s = .next t ∧ t = { s with chans := t.chans } ∧
      t.chan c = { s.chan c with coef := v } ∧ ∀ d, d ≠ c → t.chan d = s.chan d

/-! ## Nibble codec -/

/-- 40_nibble_codec.md R80: the table of `NibDec`, entry by entry and in closed form, and its range. -/
def Obligations.NibDecTable : Prop :=
  (List.finRange 16).map (fun u => nibDec (BitVec.ofFin u)) =
    [0, 1, 2, 3, 4, 5, 6, 7, -8, -7, -6, -5, -4, -3, -2, -1] ∧
  ∀ u : Nibble, nibDec u = (if u.toNat < 8 then (u.toNat : Int) else u.toNat - 16) ∧
    -8 ≤ nibDec u ∧ nibDec u ≤ 7 ∧
    ((BitVec.ofInt 8 (nibDec u)).toNat ≤ 0x07 ∨ 0xF8 ≤ (BitVec.ofInt 8 (nibDec u)).toNat)

/-- 40_nibble_codec.md R81: `NibEnc` on the codec's range, on every signed byte, and that the encoder never calls it
outside -8..7. -/
def Obligations.NibEncTakesTheLowNibble : Prop :=
  (∀ v : Int, -8 ≤ v → v ≤ 7 →
    nibDec (nibEnc v) = v ∧ ((nibEnc v).toNat : Int) = if 0 ≤ v then v else v + 16) ∧
  (∀ v : Int, -128 ≤ v → v ≤ 127 →
    nibEnc v = (BitVec.ofInt 8 v).extractLsb' 0 4 ∧ ((nibEnc v).toNat : Int) = v % 16) ∧
  ∀ (pair : Pair) (exp : Nat) (h1 h2 : Int) (targets : List Int),
    ∀ q ∈ (trial pair exp h1 h2 targets).2, -8 ≤ q ∧ q ≤ 7

/-- 40_nibble_codec.md R82: the laws (a), (b) and (c) of the codec. -/
def Obligations.NibbleCodecLaws : Prop :=
  (∀ u : Nibble, nibEnc (nibDec u) = u) ∧
  (∀ u : Nibble, -8 ≤ nibDec u ∧ nibDec u ≤ 7) ∧
  (∀ v : Int, -8 ≤ v → v ≤ 7 → nibDec (nibEnc v) = v) ∧
  ∀ v : Int, -128 ≤ v → v ≤ 127 → (v < -8 ∨ 7 < v) →
    nibDec (nibEnc v) = (BitVec.ofInt 4 (v % 16)).toInt ∧ nibDec (nibEnc v) ≠ v

/-- 40_nibble_codec.md R84: `NIB_DEC` pushes the nibble's value as a signed byte, bits 31:8 zero, and changes nothing
else; a packet with its `OPC` and a 1 above bit 3 is a reserved-field fault. -/
def Obligations.NibDecPushesTheSignedByte : Prop :=
  (∀ (u : Nibble) (s : State),
    exec (.nibDec u) s =
      .next { s with rspq := s.rspq ++ [BitVec.ofNat 32 (if u.toNat < 8 then u.toNat else 0xF0 + u.toNat)] }) ∧
  ∀ (s : State) (w : Word) (rest : List Word) (turns : List Turn), s.NextPacket [w] rest turns →
    w.toNat / 2 ^ 24 = 0x10 →
    (w.toNat % 2 ^ 24 < 16 →
      step s = .next { s with rspq := s.rspq ++ [BitVec.ofNat 32 (if w.toNat % 16 < 8 then w.toNat % 16
                                                                  else 0xF0 + w.toNat % 16)],
                              pos := s.pos + 1, pktbuf := [], pending := rest, script := turns }) ∧
    (16 ≤ w.toNat % 2 ^ 24 →
      step s = .next { s with status := { fault := true, cause := 2 }, pos := s.pos + 1, pktbuf := [],
                              pending := rest, script := turns })

/-- 40_nibble_codec.md R85: `NIB_ENC` pushes the low four bits of its byte, in the codec's range or not, and changes
nothing else; a packet with its `OPC` and a 1 above bit 7 is a reserved-field fault. -/
def Obligations.NibEncPushesTheLowNibble : Prop :=
  (∀ (b : Byte) (s : State),
    exec (.nibEnc b) s = .next { s with rspq := s.rspq ++ [BitVec.ofNat 32 (b.toNat % 16)] }) ∧
  ∀ (s : State) (w : Word) (rest : List Word) (turns : List Turn), s.NextPacket [w] rest turns →
    w.toNat / 2 ^ 24 = 0x11 →
    (w.toNat % 2 ^ 24 < 256 →
      step s = .next { s with rspq := s.rspq ++ [BitVec.ofNat 32 (w.toNat % 16)],
                              pos := s.pos + 1, pktbuf := [], pending := rest, script := turns }) ∧
    (256 ≤ w.toNat % 2 ^ 24 →
      step s = .next { s with status := { fault := true, cause := 2 }, pos := s.pos + 1, pktbuf := [],
                              pending := rest, script := turns })

/-! ## Decoder -/

/-- 42_decoder.md R113: the equivalent forms of `DecodeSample`: (a) clamp before the shift, (b) additive, with the
rounded prediction, (c) the rounding of the prediction: to the nearest integer, a tie upward. -/
def Obligations.DecodeSampleForms : Prop :=
  ∀ (coef1 coef2 h1 h2 n : Int) (exp : Nat),
    let predicted := coef1 * h1 + coef2 * h2
    let p := roundedPrediction (coef1, coef2) h1 h2
    decodeSample (coef1, coef2) h1 h2 n exp =
      max (-(2 ^ 26)) (min (2 ^ 26 - 1) (n * 2 ^ exp * 2048 + 1024 + predicted)) / 2048 ∧
    decodeSample (coef1, coef2) h1 h2 n exp = max (-32768) (min 32767 (n * 2 ^ exp + p)) ∧
    p = (predicted + 1024) / 2048 ∧
    -1024 ≤ predicted - 2048 * p ∧ predicted - 2048 * p < 1024 ∧
    (predicted = 1024 → p = 1) ∧ (predicted = -1024 → p = 0) ∧ (predicted = -1025 → p = -1)

/-- 42_decoder.md R117, first sentence: the range of the exact accumulator for arguments in range. -/
def Obligations.AccumulatorRange : Prop :=
  (∀ (coef1 coef2 h1 h2 : I16) (n : Int) (exp : Nat), -8 ≤ n → n ≤ 7 → exp ≤ 15 →
    predict (coef1.toInt, coef2.toInt) h1.toInt h2.toInt ≤ 2 ^ 31 ∧
    -(2 ^ 31) ≤ predict (coef1.toInt, coef2.toInt) h1.toInt h2.toInt ∧
    -2684288000 ≤ accumulate (coef1.toInt, coef2.toInt) h1.toInt h2.toInt n exp ∧
    accumulate (coef1.toInt, coef2.toInt) h1.toInt h2.toInt n exp ≤ 2617246720) ∧
  predict (-32768, -32768) (-32768) (-32768) = 2 ^ 31

/-- 42_decoder.md R118: `PASS_START` zeroes both history cells of its channel and changes nothing else. -/
def Obligations.PassStartZeroesTheHistory : Prop :=
  ∀ (s : State) (ch : Nibble) (c : Fin 2), ch.toNat = c.val →
    ∃ t, exec (.passStart ch) s = .next t ∧ t = { s with chans := t.chans } ∧
      t.chan c = { s.chan c with hist1 := 0#16, hist2 := 0#16 } ∧ ∀ d, d ≠ c → t.chan d = s.chan d

/-- 42_decoder.md R110 to R116, R119: `DEC_FRAME` on a frame whose index is 0..7. `y 0`, `y 1` are `HIST2`, `HIST1`
before; `y 2 .. y 15` the fourteen samples by the recurrence of R112; the response is those samples two by two; the
history becomes the last two; nothing else changes. -/
def Obligations.DecFrameFollowsTheRecurrence : Prop :=
  ∀ (s : State) (ch : Nibble) (f : Frame) (c : Fin 2) (k : Fin 8), ch.toNat = c.val → f[0].toNat / 16 = k.val →
    ∃ (y : Nat → Int) (t : State),
      y 0 = (s.chan c).hist2.toInt ∧ y 1 = (s.chan c).hist1.toInt ∧
      (∀ j : Fin 14,
        let b := (f[1 + j.val / 2]'(by omega)).toNat
        let u : Nat := if j.val % 2 = 0 then b / 16 else b % 16
        let n : Int := if u < 8 then u else u - 16
        y (j.val + 2) = max (-32768) (min 32767
          ((n * 2 ^ (f[0].toNat % 16) * 2048 + 1024 +
            (((s.chan c).coef[2 * k.val]'(by omega)).toInt * y (j.val + 1) +
             ((s.chan c).coef[2 * k.val + 1]'(by omega)).toInt * y j.val)) / 2048))) ∧
      exec (.decFrame ch f) s = .next t ∧
      t.rspq = s.rspq ++
        (List.range 7).map (fun m => BitVec.ofInt 16 (y (2 * m + 3)) ++ BitVec.ofInt 16 (y (2 * m + 2))) ∧
      t.chan c = { s.chan c with hist1 := BitVec.ofInt 16 (y 15), hist2 := BitVec.ofInt 16 (y 14) } ∧
      (∀ d, d ≠ c → t.chan d = s.chan d) ∧ t = { s with chans := t.chans, rspq := t.rspq }

/-- 42_decoder.md R116: a frame gives fourteen samples, and the history after it is its last two. -/
def Obligations.FrameGivesFourteenSamples : Prop :=
  ∀ (pair : Pair) (h1 h2 : Int) (f : Frame),
    (decodeFrame pair h1 h2 f).1.length = 14 ∧
    (decodeFrame pair h1 h2 f).2.1 = (decodeFrame pair h1 h2 f).1.getD 13 0 ∧
    (decodeFrame pair h1 h2 f).2.2 = (decodeFrame pair h1 h2 f).1.getD 12 0 ∧
    ∀ y ∈ (decodeFrame pair h1 h2 f).1, -32768 ≤ y ∧ y ≤ 32767

/-- 42_decoder.md R120, 30_encoding.md R72: the operations of `DECODE_PASS` push the samples of `DecodePass`, fourteen
a frame, whatever history the channel held. -/
def Obligations.DecodePassRefinesDecodePassOps : Prop :=
  ∀ (s : State) (c : Fin 2) (frames : List Frame), s.status.fault = false →
    (∀ f ∈ frames, f[0].toNat / 16 < 8) →
    ∃ t, execAll (decodePassOps c frames) s = .next t ∧ t.status = s.status ∧
      t.rspq = s.rspq ++ packSamples (decodePass (s.chan c).pair frames (14 * frames.length)) ∧
      (decodePass (s.chan c).pair frames (14 * frames.length)).length = 14 * frames.length ∧
      (t.chan c).coef = (s.chan c).coef ∧ ∀ d, d ≠ c → t.chan d = s.chan d

/-! ## Encoder -/

/-- 43_encoder.md R133: the quantiser's formula, its range, and that no nibble reconstructs nearer to the target. -/
def Obligations.QuantiserIsNearest : Prop :=
  ∀ (coef1 coef2 h1 h2 t : Int) (exp : Nat),
    let p := (coef1 * h1 + coef2 * h2 + 1024) / 2048
    let scale : Int := 2 ^ exp
    let q := quantise (coef1, coef2) h1 h2 exp t
    q = max (-8) (min 7 ((2 * (t - p) + scale) / (2 * scale))) ∧
    ∀ n : Int, -8 ≤ n → n ≤ 7 → |t - (q * scale + p)| ≤ |t - (n * scale + p)|

/-- 43_encoder.md R132, R133, R134: a trial is a decoding of its own residuals from the same history, each of them the
quantiser's on the two reconstructed samples before it (the trace is `h2`, `h1`, then the samples); its error is the
sum of the squared differences, below 2^36 for fourteen `int16` targets. -/
def Obligations.TrialIsATrialDecoding : Prop :=
  ∀ (pair : Pair) (exp : Nat) (h1 h2 : Int) (targets : List Int),
    let r := trial pair exp h1 h2 targets
    let y := (decodeResiduals pair exp h1 h2 r.2).1
    let trace : Nat → Int := fun j => (h2 :: h1 :: y).getD j 0
    y.length = targets.length ∧ r.2.length = targets.length ∧
    (∀ j, j < targets.length →
      r.2.getD j 0 = quantise pair (trace (j + 1)) (trace j) exp (targets.getD j 0)) ∧
    r.1 = (List.zipWith (fun t y => (t - y) ^ 2) targets y).sum ∧ 0 ≤ r.1 ∧
    (targets.length = 14 → (∀ t ∈ targets, -32768 ≤ t ∧ t ≤ 32767) → r.1 ≤ 14 * 65535 ^ 2 ∧ r.1 < 2 ^ 36)

/-- 43_encoder.md R135: the search gives a trial of the space of 8 indices and 16 exponents with the least error, among
those the one with the least index, among those the one with the least exponent. -/
def Obligations.SearchFindsTheLeastError : Prop :=
  ∀ (table : Fin 8 → Pair) (h1 h2 : Int) (targets : List Int),
    let best := bestCandidate table h1 h2 targets
    (best.err, best.residuals) = trial (table best.idx) best.exp.val h1 h2 targets ∧
    ∀ (idx : Fin 8) (exp : Fin 16),
      let err := (trial (table idx) exp.val h1 h2 targets).1
      best.err ≤ err ∧ (err = best.err → best.idx < idx ∨ best.idx = idx ∧ best.exp ≤ exp)

/-- 43_encoder.md R132, R135, R137: the emitted frame holds the search's index and exponent in its header and the
search's residuals in its data bytes, the earlier one in the high nibble; decoding the emitted frame from the block's
history gives the winning trial's reconstruction: its squared error is the least over all 128 trials. -/
def Obligations.EmittedFrameDecodesToTheBestTrial : Prop :=
  ∀ (table : Fin 8 → Pair) (h1 h2 : Int) (targets : List Int), targets.length = 14 →
    let f := encodeFrame table h1 h2 targets
    let best := bestCandidate table h1 h2 targets
    f[0].toNat = 16 * best.idx.val + best.exp.val ∧
    (∀ m : Fin 7, f[1 + m.val]'(by omega) =
      nibEnc (best.residuals.getD (2 * m.val) 0) ++ nibEnc (best.residuals.getD (2 * m.val + 1) 0)) ∧
    ∃ k : Fin 8, f[0].toNat / 16 = k.val ∧
      ∀ (idx : Fin 8) (exp : Fin 16),
        (List.zipWith (fun t y => (t - y) ^ 2) targets (decodeFrame (table k) h1 h2 f).1).sum ≤
          (trial (table idx) exp.val h1 h2 targets).1

/-- 43_encoder.md R136: an emitted frame has an index of 0..7, and `DEC_FRAME` does not fault on the frame that an
`ENC_BLOCK` pushed, on any channel, in any state. -/
def Obligations.EmittedFrameNeverFaults : Prop :=
  (∀ (table : Fin 8 → Pair) (h1 h2 : Int) (targets : List Int),
    (encodeFrame table h1 h2 targets)[0].toNat / 16 < 8) ∧
  ∀ (s s' t : State) (ch len ch' : Nibble) (samples : Block) (w0 w1 : Word),
    exec (.encBlock ch len samples) s = .next t → t.rspq = s.rspq ++ [w0, w1] → ch'.toNat < 2 →
    ∃ t', exec (.decFrame ch' (frameOf [w0, w1])) s' = .next t' ∧ t'.status = s'.status

/-- 43_encoder.md R131, R138, R139, R140: `ENC_BLOCK` with a length of 1..14 pushes the two words of the frame of its
padded targets and leaves the last two targets, not the reconstruction, as history; nothing else changes. -/
def Obligations.EncBlockPushesTheFrame : Prop :=
  ∀ (s : State) (ch len : Nibble) (samples : Block) (c : Fin 2), ch.toNat = c.val → 1 ≤ len.toNat → len.toNat ≤ 14 →
    let target : Fin 14 → Int := fun j => if j.val < len.toNat then (samples[j.val]).toInt else 0
    let f := encodeFrame (s.chan c).pair (s.chan c).hist1.toInt (s.chan c).hist2.toInt (List.ofFn target)
    ∃ t, exec (.encBlock ch len samples) s = .next t ∧
      t.rspq = s.rspq ++ [f[3] ++ f[2] ++ f[1] ++ f[0], f[7] ++ f[6] ++ f[5] ++ f[4]] ∧
      t.chan c = { s.chan c with hist1 := BitVec.ofInt 16 (target 13), hist2 := BitVec.ofInt 16 (target 12) } ∧
      (∀ d, d ≠ c → t.chan d = s.chan d) ∧ t = { s with chans := t.chans, rspq := t.rspq }

/-- 43_encoder.md R131, R140: payload samples at positions `len` and above are ignored. -/
def Obligations.SamplesBeyondTheLengthAreIgnored : Prop :=
  ∀ (s : State) (ch len : Nibble) (b b' : Block),
    (∀ j : Fin 14, j.val < len.toNat → b[j.val] = b'[j.val]) →
    exec (.encBlock ch len b) s = exec (.encBlock ch len b') s

/-- 43_encoder.md R140, R142: all-zero targets with zero history give the all-zero frame, for every table. -/
def Obligations.SilentBlockGivesTheZeroFrame : Prop :=
  ∀ table : Fin 8 → Pair, encodeFrame table 0 0 (List.replicate 14 0) = Vector.replicate 8 0#8

/-- 43_encoder.md R141, 30_encoding.md R72: the operations of `ENCODE_PASS` push the frames of `EncodePass`, one for
every fourteen samples, whatever history the channel held. -/
def Obligations.EncodePassRefinesEncodePassOps : Prop :=
  ∀ (s : State) (c : Fin 2) (xs : List I16), s.status.fault = false →
    ∃ t, execAll (encodePassOps c xs) s = .next t ∧ t.status = s.status ∧
      t.rspq = s.rspq ++ (encodePass (s.chan c).pair (xs.map BitVec.toInt)).flatMap frameWords ∧
      (t.chan c).coef = (s.chan c).coef ∧ ∀ d, d ≠ c → t.chan d = s.chan d

/-- 43_encoder.md R141, R143: `EncodePass` gives `ceil(N/14)` frames, and decoding them reproduces the sample count
exactly, whatever tables the two passes use. -/
def Obligations.RoundTripKeepsTheSampleCount : Prop :=
  ∀ (table table' : Fin 8 → Pair) (xs : List Int),
    (encodePass table xs).length = (xs.length + 13) / 14 ∧
    (decodePass table' (encodePass table xs) xs.length).length = xs.length

/-! ## LPC solver -/

/-- 41_lpc_solver.md R95: `Seg(i, N)` is the segment whose index range holds `i`; segments are contiguous and cover
0..N-1; some are empty when `N < 8`, all when `N = 0`; pair `k` depends on segment `k` alone. -/
def Obligations.SegmentsCutTheSequence : Prop :=
  (∀ (i n : Nat) (k : Fin 8), i < n →
    ((8 * i + 7) / n < 8 ∧ (segmentOf i n).val = (8 * i + 7) / n) ∧
    (segmentOf i n = k ↔ k.val * n / 8 ≤ i ∧ i < (k.val + 1) * n / 8)) ∧
  (∀ xs : List Int, (List.finRange 8).flatMap (segmentSamples xs) = xs) ∧
  (∀ xs : List Int, xs.length < 8 → ∃ k, segmentSamples xs k = []) ∧
  (∀ k, segmentSamples [] k = []) ∧
  ∀ (xs ys : List Int) (k : Fin 8), segmentSamples xs k = segmentSamples ys k → lpcSolve xs k = lpcSolve ys k

/-- 41_lpc_solver.md R103 (a) to (c): the sums of a segment are bounded by its energy, the determinant is never
negative, and it is zero exactly for an empty or all-zero segment. -/
def Obligations.AutocorrelationProperties : Prop :=
  ∀ xs : List Int,
    let r := lagSums xs
    0 ≤ r.r0 ∧ |r.r1| ≤ r.r0 ∧ |r.r2| ≤ r.r0 ∧ 0 ≤ r.det ∧ (r.det = 0 ↔ ∀ x ∈ xs, x = 0)

/-- 41_lpc_solver.md R99: `LPC_START` with a length below 2^31 arms the channel's LPC registers and changes nothing
else. -/
def Obligations.LpcStartArms : Prop :=
  ∀ (s : State) (ch : Nibble) (n : Word) (c : Fin 2), ch.toNat = c.val → n.toNat < 2 ^ 31 →
    ∃ t, exec (.lpcStart ch n) s = .next t ∧ t = { s with chans := t.chans } ∧ (∀ d, d ≠ c → t.chan d = s.chan d) ∧
      (t.chan c).lpcN.toNat = n.toNat ∧
      t.chan c = { s.chan c with lpcArmed := true, lpcN := (t.chan c).lpcN, lpcCnt := 0#31, lpcP1 := 0#16,
                                 lpcP2 := 0#16, lpcR := Vector.replicate 8 { r0 := 0, r1 := 0, r2 := 0 } }

/-- 41_lpc_solver.md R100: `LPC_SAMPLE` on an armed channel that still expects a sample accumulates the three products
of the sample and its window into the sums of its segment, moves the window and counts; nothing else changes. -/
def Obligations.LpcSampleAccumulates : Prop :=
  ∀ (s : State) (ch : Nibble) (x : I16) (c : Fin 2), ch.toNat = c.val →
    (s.chan c).lpcArmed = true → (s.chan c).lpcCnt.toNat < (s.chan c).lpcN.toNat →
    let i := (s.chan c).lpcCnt.toNat
    let n := (s.chan c).lpcN.toNat
    let first : Prop := i = 0 ∨ (8 * (i - 1) + 7) / n ≠ (8 * i + 7) / n
    ∃ (p1 p2 : I16) (t : State),
      (first → p1 = 0#16 ∧ p2 = 0#16) ∧ (¬ first → p1 = (s.chan c).lpcP1 ∧ p2 = (s.chan c).lpcP2) ∧
      exec (.lpcSample ch x) s = .next t ∧ t = { s with chans := t.chans } ∧ (∀ d, d ≠ c → t.chan d = s.chan d) ∧
      (t.chan c).lpcCnt.toNat = i + 1 ∧
      (∀ k : Fin 8, (t.chan c).lpcR[k.val] =
        if k.val = (8 * i + 7) / n then
          { r0 := ((s.chan c).lpcR[k.val]).r0 + x.toInt * x.toInt,
            r1 := ((s.chan c).lpcR[k.val]).r1 + x.toInt * p1.toInt,
            r2 := ((s.chan c).lpcR[k.val]).r2 + x.toInt * p2.toInt }
        else (s.chan c).lpcR[k.val]) ∧
      t.chan c = { s.chan c with lpcCnt := (t.chan c).lpcCnt, lpcR := (t.chan c).lpcR, lpcP1 := x, lpcP2 := p1 }

/-- 41_lpc_solver.md R97, R98, R101: `LPC_SOLVE` on an armed channel with all its samples writes the sixteen
coefficients of the rule's formulas, disarms, and changes nothing else. -/
def Obligations.LpcSolveWritesTheTable : Prop :=
  ∀ (s : State) (ch : Nibble) (c : Fin 2), ch.toNat = c.val →
    (s.chan c).lpcArmed = true → (s.chan c).lpcCnt.toNat = (s.chan c).lpcN.toNat →
    ∃ t, exec (.lpcSolve ch) s = .next t ∧ t = { s with chans := t.chans } ∧ (∀ d, d ≠ c → t.chan d = s.chan d) ∧
      t.chan c = { s.chan c with coef := (t.chan c).coef, lpcArmed := false } ∧
      ∀ k : Fin 8,
        let r0 := ((s.chan c).lpcR[k.val]).r0
        let r1 := ((s.chan c).lpcR[k.val]).r1
        let r2 := ((s.chan c).lpcR[k.val]).r2
        let det := r0 * r0 - r1 * r1
        ((t.chan c).coef[2 * k.val]'(by omega)).toInt =
          (if det ≤ 0 then 0
           else max (-32768) (min 32767 ((2 * (2048 * r1 * (r0 - r2)) + det) / (2 * det)))) ∧
        ((t.chan c).coef[2 * k.val + 1]'(by omega)).toInt =
          (if det ≤ 0 then 0
           else max (-32768) (min 32767 ((2 * (2048 * (r0 * r2 - r1 * r1)) + det) / (2 * det))))

/-- 41_lpc_solver.md R102 (and R90, R91, R93): the operations of `LPC_DERIVE` over any sequence of fewer than 2^31
samples complete without a fault and leave the closed form `LpcSolve` of the sequence in the channel's table; history,
the other channel and everything outside the channel stay. -/
def Obligations.StreamingEqualsTheClosedForm : Prop :=
  ∀ (s : State) (c : Fin 2) (xs : List I16), s.status.fault = false → xs.length < 2 ^ 31 →
    ∃ t, execAll (lpcDerive c xs) s = .next t ∧ t = { s with chans := t.chans } ∧
      (∀ d, d ≠ c → t.chan d = s.chan d) ∧
      (t.chan c).coef = tableOf (lpcSolve (xs.map BitVec.toInt)) ∧
      (∀ k : Fin 8, (t.chan c).lpcR[k.val] = lagSums (segmentSamples (xs.map BitVec.toInt) k)) ∧
      (t.chan c).hist1 = (s.chan c).hist1 ∧ (t.chan c).hist2 = (s.chan c).hist2 ∧ (t.chan c).lpcArmed = false

/-! ## The whole machine -/

/-- 20_memory.md R52: an operation with a channel operand neither reads nor writes the other channel: exchanging the
other channel's context exchanges it in the result and does nothing else. -/
def Obligations.OtherChannelIsIsolated : Prop :=
  ∀ (i : Instr) (s t : State) (ch : Nibble) (d : Fin 2) (other : Channel),
    i.channel = some ch → ch.toNat ≠ d.val → exec i s = .next t →
    t.chan d = s.chan d ∧ exec i (s.setChan d other) = .next (t.setChan d other)

/-- 20_memory.md R52: two fault-free operations on different channels commute in all state but the order of their words
in `RSPQ`: each pushes the same words in both orders, and these stand in the order of execution. -/
def Obligations.ChannelsCommute : Prop :=
  ∀ (i j : Instr) (s si sij sj sji : State) (chI chJ : Nibble),
    i.channel = some chI → j.channel = some chJ → chI ≠ chJ → s.status.fault = false →
    exec i s = .next si → exec j si = .next sij → exec j s = .next sj → exec i sj = .next sji →
    sij.status.fault = false → sji.status.fault = false →
    sji = { sij with rspq := sji.rspq } ∧
    ∃ wordsI wordsJ, si.rspq = s.rspq ++ wordsI ∧ sj.rspq = s.rspq ++ wordsJ ∧
      sij.rspq = s.rspq ++ wordsI ++ wordsJ ∧ sji.rspq = s.rspq ++ wordsJ ++ wordsI

/-- 10_state.md R25, R26, R29, 41_lpc_solver.md R104: every step keeps the invariant: `STATUS` legal, `PKTBUF` an
incomplete packet (empty in the fault state), the LPC count within its length and every sum bounded by the count. -/
def Obligations.StepKeepsTheInvariant : Prop := ∀ s t : State, s.Inv → step s = .next t → t.Inv

/-- The invariant holds after reset. -/
def Obligations.ResetMeetsTheInvariant : Prop := State.reset.Inv

/-- 41_lpc_solver.md R104: in a state with the invariant, and so after any step from one, every accumulator is below
2^61 in magnitude: 63 signed bits hold it. -/
def Obligations.AccumulatorsStayBelowTwoToThe61 : Prop :=
  ∀ s t : State, s.Inv → step s = .next t → ∀ (c : Fin 2) (k : Fin 8),
    |((t.chan c).lpcR[k.val]).r0| < 2 ^ 61 ∧ |((t.chan c).lpcR[k.val]).r1| < 2 ^ 61 ∧
    |((t.chan c).lpcR[k.val]).r2| < 2 ^ 61
end

