-- ==== Sys2Proof/Laws/Decode.lean ====
section
/-! SUPPORT. Laws of the encodings: the fields of a command word and the word of its fields, packing and unpacking,
framing. -/

namespace Sys2Proof

/-! ## Command words as numbers and as fields -/

/-- Appending bit vectors adds up their numbers. -/
theorem toNat_append_eq {n m : Nat} (a : BitVec n) (b : BitVec m) : (a ++ b).toNat = a.toNat * 2 ^ m + b.toNat := by
  rw [BitVec.toNat_append, Nat.shiftLeft_eq, Nat.mul_comm, Nat.two_pow_add_eq_or_of_lt b.isLt]

theorem commandWord_toNat (o : Byte) (i c : Nibble) (m : I16) :
    (commandWord o i c m).toNat = o.toNat * 2 ^ 24 + i.toNat * 2 ^ 20 + c.toNat * 2 ^ 16 + m.toNat := by
  simp only [commandWord, toNat_append_eq]
  omega

theorem opcField_toNat (w : Word) : (opcField w).toNat = w.toNat / 2 ^ 24 := by
  have := w.isLt
  simp only [opcField, BitVec.extractLsb'_toNat, Nat.shiftRight_eq_div_pow]
  omega

theorem idxField_toNat (w : Word) : (idxField w).toNat = w.toNat / 2 ^ 20 % 16 := by
  simp only [idxField, BitVec.extractLsb'_toNat, Nat.shiftRight_eq_div_pow, Nat.reducePow]

theorem chField_toNat (w : Word) : (chField w).toNat = w.toNat / 2 ^ 16 % 16 := by
  simp only [chField, BitVec.extractLsb'_toNat, Nat.shiftRight_eq_div_pow, Nat.reducePow]

theorem immField_toNat (w : Word) : (immField w).toNat = w.toNat % 2 ^ 16 := by
  simp only [immField, BitVec.extractLsb'_toNat, Nat.shiftRight_eq_div_pow, Nat.pow_zero, Nat.div_one]

@[simp] theorem opcField_commandWord (o : Byte) (i c : Nibble) (m : I16) : opcField (commandWord o i c m) = o := by
  apply BitVec.eq_of_toNat_eq
  rw [opcField_toNat, commandWord_toNat]
  omega

@[simp] theorem idxField_commandWord (o : Byte) (i c : Nibble) (m : I16) : idxField (commandWord o i c m) = i := by
  apply BitVec.eq_of_toNat_eq
  rw [idxField_toNat, commandWord_toNat]
  omega

@[simp] theorem chField_commandWord (o : Byte) (i c : Nibble) (m : I16) : chField (commandWord o i c m) = c := by
  apply BitVec.eq_of_toNat_eq
  rw [chField_toNat, commandWord_toNat]
  omega

@[simp] theorem immField_commandWord (o : Byte) (i c : Nibble) (m : I16) : immField (commandWord o i c m) = m := by
  apply BitVec.eq_of_toNat_eq
  rw [immField_toNat, commandWord_toNat]
  omega

/-- A word is the command word of its fields: every bit belongs to one field (R64). -/
theorem commandWord_fields (w : Word) : commandWord (opcField w) (idxField w) (chField w) (immField w) = w := by
  apply BitVec.eq_of_toNat_eq
  rw [commandWord_toNat, opcField_toNat, idxField_toNat, chField_toNat, immField_toNat]
  omega

theorem commandWord_inj {o o' : Byte} {i i' c c' : Nibble} {m m' : I16} :
    commandWord o i c m = commandWord o' i' c' m' ↔ o = o' ∧ i = i' ∧ c = c' ∧ m = m' := by
  constructor
  · intro h
    exact ⟨by simpa using congrArg opcField h, by simpa using congrArg idxField h,
      by simpa using congrArg chField h, by simpa using congrArg immField h⟩
  · rintro ⟨rfl, rfl, rfl, rfl⟩
    rfl

theorem commandWord_and (o o' : Byte) (i i' c c' : Nibble) (m m' : I16) :
    commandWord o i c m &&& commandWord o' i' c' m' = commandWord (o &&& o') (i &&& i') (c &&& c') (m &&& m') := by
  unfold commandWord
  rw [BitVec.and_append, BitVec.and_append, BitVec.and_append]

/-- The must-be-zero test field by field. -/
theorem commandWord_and_eq_zero (o o' : Byte) (i i' c c' : Nibble) (m m' : I16) :
    commandWord o i c m &&& commandWord o' i' c' m' = 0#32 ↔
      o &&& o' = 0 ∧ i &&& i' = 0 ∧ c &&& c' = 0 ∧ m &&& m' = 0 := by
  rw [commandWord_and, show (0#32 : Word) = commandWord 0 0 0 0 by decide, commandWord_inj]

/-- The must-be-zero masks by field (R67): no mask touches the `OPC` field. -/
theorem mbz_fields (op : Op) : op.mbz = commandWord 0 (idxField op.mbz) (chField op.mbz) (immField op.mbz) := by
  cases op <;> decide

/-! ## The opcode table -/

@[simp] theorem ofCode_code (op : Op) : Op.ofCode op.code = some op := by cases op <;> decide

/-- An `OPC` value selects an operation exactly when it is that operation's code. -/
theorem ofCode_eq_some {c : Byte} {op : Op} : Op.ofCode c = some op ↔ c = op.code := by
  constructor
  · intro h
    have := List.find?_some h
    simpa using (beq_iff_eq.mp this).symm
  · rintro rfl
    exact ofCode_code op

theorem ofCode_eq_none {c : Byte} : Op.ofCode c = none ↔ ∀ op : Op, c ≠ op.code := by
  constructor
  · intro h op e
    rw [e, ofCode_code] at h
    cases h
  · intro h
    cases e : Op.ofCode c with
    | none => rfl
    | some op => exact absurd (ofCode_eq_some.mp e) (h op)

/-! ## What a decode says -/

/-- What a successful decode says: a legal `OPC`, no must-be-zero bit, and the operands (R195 steps 1 and 2). -/
theorem decode_eq_instr {w : Word} {payload : List Word} {i : Instr} (h : decode w payload = .instr i) :
    ∃ op : Op, opcField w = op.code ∧ w &&& op.mbz = 0#32 ∧ op.operands w payload = i := by
  unfold decode at h
  split at h
  · cases h
  · next op e =>
    split at h
    · next hz => cases h; exact ⟨op, ofCode_eq_some.mp e, hz, rfl⟩
    · cases h

/-- The must-be-zero test of a word, field by field. -/
theorem mbz_fieldwise (op : Op) (w : Word) (h : w &&& op.mbz = 0#32) :
   idxField w &&& idxField op.mbz = 0 ∧ chField w &&& chField op.mbz = 0 ∧ immField w &&& immField op.mbz = 0 := by
  rw [mbz_fields op, ← commandWord_fields w, commandWord_and_eq_zero] at h
  simpa using h.2

theorem eq_zero_of_and_15 (x : Nibble) (h : x &&& 15#4 = 0) : x = 0 := by revert x; decide

theorem eq_zero_of_and_FFFF (x : I16) (h : x &&& 0xFFFF#16 = 0) : x = 0 := by
  rwa [show (0xFFFF#16) = BitVec.allOnes 16 by decide, BitVec.and_allOnes] at h

/-- A mask over the upper part of an appended vector. -/
theorem upper_eq_zero {k n : Nat} (x : BitVec n) (y : BitVec k) (hx : (x ++ y) &&& ((BitVec.allOnes n) ++ (0#k)) = 0) : x = 0 := by
  rw [BitVec.and_append, BitVec.and_allOnes] at hx
  have := congrArg BitVec.toNat hx
  simp only [toNat_append_eq] at this
  apply BitVec.eq_of_toNat_eq
  simp at this ⊢
  exact this
/-- With the must-be-zero bits of `NIB_DEC` zero, `IMM` is its low nibble (R65). -/
theorem low_nibble_of_mbz (x : I16) (h : x &&& 0xFFF0#16 = 0) : (x.extractLsb' 0 4).setWidth 16 = x := by
  have e : x = (x.extractLsb' 4 12 ++ x.extractLsb' 0 4 : BitVec 16) := by
    apply BitVec.eq_of_toNat_eq
    have := x.isLt
    simp only [toNat_append_eq, BitVec.extractLsb'_toNat, Nat.shiftRight_eq_div_pow]; omega
  have hz := upper_eq_zero (x.extractLsb' 4 12) (x.extractLsb' 0 4) (by rw [← e]; exact h)
  apply BitVec.eq_of_toNat_eq
  have hz := congrArg BitVec.toNat hz
  have := x.isLt
  simp [BitVec.extractLsb'_toNat, Nat.shiftRight_eq_div_pow] at hz ⊢
  omega
/-- With the must-be-zero bits of `NIB_ENC` zero, `IMM` is its low byte (R65). -/
theorem low_byte_of_mbz (x : I16) (h : x &&& 0xFF00#16 = 0) : (x.extractLsb' 0 8).setWidth 16 = x := by
  have e : x = (x.extractLsb' 8 8 ++ x.extractLsb' 0 8 : BitVec 16) := by
    apply BitVec.eq_of_toNat_eq
    have := x.isLt
    simp only [toNat_append_eq, BitVec.extractLsb'_toNat, Nat.shiftRight_eq_div_pow]; omega
  have hz := upper_eq_zero (x.extractLsb' 8 8) (x.extractLsb' 0 8) (by rw [← e]; exact h)
  apply BitVec.eq_of_toNat_eq
  have hz := congrArg BitVec.toNat hz
  have := x.isLt
  simp [BitVec.extractLsb'_toNat, Nat.shiftRight_eq_div_pow] at hz ⊢
  omega

/-- The command word is rebuilt from the operands it decodes to: no bit of it is dropped (R69). -/
theorem operands_command {op : Op} {w : Word} {payload : List Word} (h1 : opcField w = op.code) (h2 : w &&& op.mbz = 0#32) :
   (op.operands w payload).command = w := by
  obtain ⟨a, b, c⟩ := mbz_fieldwise op w h2
  have e := commandWord_fields w
  cases op <;> simp only [Op.operands, Instr.command] <;> rw [← e, ← h1] <;> simp <;> congr 1
  all_goals first
    | exact (eq_zero_of_and_15 _ a).symm
    | exact (eq_zero_of_and_15 _ b).symm
    | exact (eq_zero_of_and_FFFF _ c).symm
    | exact (low_nibble_of_mbz _ c)
    | exact (low_byte_of_mbz _ c)

/-! ## Packing -/

theorem byteOf_packBytes (b0 b1 b2 b3 : Byte) :
    byteOf (packBytes b0 b1 b2 b3) 0 = b0 ∧ byteOf (packBytes b0 b1 b2 b3) 1 = b1 ∧
      byteOf (packBytes b0 b1 b2 b3) 2 = b2 ∧ byteOf (packBytes b0 b1 b2 b3) 3 = b3 := by
  have h0 := b0.isLt
  have h1 := b1.isLt
  have h2 := b2.isLt
  have h3 := b3.isLt
  refine ⟨?_, ?_, ?_, ?_⟩ <;> apply BitVec.eq_of_toNat_eq <;>
    simp only [byteOf, packBytes, BitVec.extractLsb'_toNat, toNat_append_eq, Nat.shiftRight_eq_div_pow] <;> omega

theorem packBytes_byteOf (w : Word) : packBytes (byteOf w 0) (byteOf w 1) (byteOf w 2) (byteOf w 3) = w := by
  apply BitVec.eq_of_toNat_eq
  have := w.isLt
  simp only [byteOf, packBytes, BitVec.extractLsb'_toNat, toNat_append_eq, Nat.shiftRight_eq_div_pow]
  omega

theorem halfOf_packHalves (s0 s1 : I16) :
    halfOf (packHalves s0 s1) 0 = s0 ∧ halfOf (packHalves s0 s1) 1 = s1 := by
  have h0 := s0.isLt
  have h1 := s1.isLt
  refine ⟨?_, ?_⟩ <;> apply BitVec.eq_of_toNat_eq <;>
    simp only [halfOf, packHalves, BitVec.extractLsb'_toNat, toNat_append_eq, Nat.shiftRight_eq_div_pow] <;> omega

theorem packHalves_halfOf (w : Word) : packHalves (halfOf w 0) (halfOf w 1) = w := by
  apply BitVec.eq_of_toNat_eq
  have := w.isLt
  simp only [halfOf, packHalves, BitVec.extractLsb'_toNat, toNat_append_eq, Nat.shiftRight_eq_div_pow]
  omega

/-- Unpacking the two words of a frame gives the frame (R49, R65). -/
theorem frameOf_frameWords (f : Frame) : frameOf (frameWords f) = f := by
  obtain ⟨a0, a1, a2, a3⟩ := byteOf_packBytes f[0] f[1] f[2] f[3]
  obtain ⟨b0, b1, b2, b3⟩ := byteOf_packBytes f[4] f[5] f[6] f[7]
  apply Vector.ext
  intro i hi
  interval_cases i <;> simp [frameOf, frameWords, frameByte, payloadAt, a0, a1, a2, a3, b0, b1, b2, b3]

/-- Packing the frame of two payload words gives the words. -/
theorem frameWords_frameOf (w0 w1 : Word) : frameWords (frameOf [w0, w1]) = [w0, w1] := by
  simp [frameOf, frameWords, frameByte, payloadAt, packBytes_byteOf]

/-- Unpacking the seven words of a block gives the block (R49, R65). -/
theorem blockOf_blockWords (b : Block) : blockOf (blockWords b) = b := by
  apply Vector.ext
  intro i hi
  interval_cases i <;> simp [blockOf, blockWords, sampleAt, payloadAt, halfOf_packHalves]

/-- Packing the block of seven payload words gives the words. -/
theorem blockWords_blockOf (w0 w1 w2 w3 w4 w5 w6 : Word) :
    blockWords (blockOf [w0, w1, w2, w3, w4, w5, w6]) = [w0, w1, w2, w3, w4, w5, w6] := by
  simp [blockOf, blockWords, sampleAt, payloadAt, packHalves_halfOf]

/-! ## Framing -/

theorem packetLen_pos (w : Word) : 0 < packetLen w := by
  unfold packetLen
  split <;> omega

/-- What a successful framing says: the packet is the first `packetLen` words, and all of them are there (R44). -/
theorem splitPacket_eq_some {stream packet rest : List Word} :
    splitPacket stream = some (packet, rest) ↔
      ∃ w ws, stream = w :: ws ∧ packetLen w ≤ stream.length ∧ packet = stream.take (packetLen w) ∧
        rest = stream.drop (packetLen w) := by
  cases stream with
  | nil => simp [splitPacket]
  | cons w ws =>
    constructor
    · intro h
      simp only [splitPacket] at h
      split at h
      · next hle =>
        cases h
        exact ⟨w, ws, rfl, hle, rfl, rfl⟩
      · cases h
    · rintro ⟨w', ws', e, hle, rfl, rfl⟩
      cases e
      simp [splitPacket, show packetLen w ≤ ws.length + 1 from hle]

/-- A packet is never empty, and with what is behind it it is the stream. -/
theorem splitPacket_append {stream packet rest : List Word} (h : splitPacket stream = some (packet, rest)) :
    packet ++ rest = stream ∧ packet ≠ [] := by
  obtain ⟨w, ws, rfl, hle, rfl, rfl⟩ := splitPacket_eq_some.mp h
  refine ⟨List.take_append_drop _ _, ?_⟩
  have := packetLen_pos w
  cases e : packetLen w with
  | zero => omega
  | succ n => simp

/-- A list that is exactly one packet is cut off any stream it begins. -/
theorem splitPacket_of_length {w : Word} {payload : List Word} (h : packetLen w = payload.length + 1)
    (rest : List Word) : splitPacket (w :: payload ++ rest) = some (w :: payload, rest) := by
  rw [splitPacket_eq_some]
  refine ⟨w, payload ++ rest, rfl, by simp [h], ?_, ?_⟩
  · rw [h]
    simp
  · rw [h]
    simp

/-- The packet a command word begins has the payload its `OPC` says. -/
theorem splitPacket_cons_length {stream payload rest : List Word} {w : Word}
    (h : splitPacket stream = some (w :: payload, rest)) : packetLen w = payload.length + 1 := by
  obtain ⟨w', ws, rfl, hle, hp, -⟩ := splitPacket_eq_some.mp h
  have hlen := congrArg List.length hp
  have hpos := packetLen_pos w'
  cases e : packetLen w' with
  | zero => omega
  | succ n =>
    rw [e] at hp hlen hle
    simp only [List.take_succ_cons, List.cons.injEq] at hp
    obtain ⟨rfl, -⟩ := hp
    rw [e]
    simp only [List.length_cons, List.length_take] at hlen hle
    omega

theorem payload_length (i : Instr) : i.payload.length = i.op.payloadWords := by cases i <;> rfl

end Sys2Proof
end

