-- ==== Sys2Proof/Laws/State.lean ====
section
/-! SUPPORT. What each update of the state leaves in each field: one lemma per field and update, true by rfl, and the
read-after-write laws of the channel contexts. -/

namespace Sys2Proof.Machine

/-! ## `setChan` -/

section SetChan

variable (s : State) (c : Fin 2) (ch : Channel)

@[simp] theorem setChan_status : (s.setChan c ch).status = s.status := rfl
@[simp] theorem setChan_rspq : (s.setChan c ch).rspq = s.rspq := rfl
@[simp] theorem setChan_pktbuf : (s.setChan c ch).pktbuf = s.pktbuf := rfl
@[simp] theorem setChan_pos : (s.setChan c ch).pos = s.pos := rfl
@[simp] theorem setChan_pending : (s.setChan c ch).pending = s.pending := rfl
@[simp] theorem setChan_taken : (s.setChan c ch).taken = s.taken := rfl
@[simp] theorem setChan_script : (s.setChan c ch).script = s.script := rfl

/-- Reading a context after writing one: the written one, or what was there (R52). -/
theorem chan_setChan (d : Fin 2) : (s.setChan c ch).chan d = if d = c then ch else s.chan d := by
  simp only [State.chan, State.setChan, Vector.getElem_set, Fin.ext_iff, eq_comm]

@[simp] theorem chan_setChan_self : (s.setChan c ch).chan c = ch := by simp [chan_setChan]

theorem chan_setChan_ne {d : Fin 2} (h : d ≠ c) : (s.setChan c ch).chan d = s.chan d := by simp [chan_setChan, h]

theorem setChan_eq_with_chans : s.setChan c ch = { s with chans := (s.setChan c ch).chans } := rfl

/-- Writes to different contexts commute. -/
theorem setChan_comm {d : Fin 2} (h : c ≠ d) (ch' : Channel) :
    (s.setChan c ch).setChan d ch' = (s.setChan d ch').setChan c ch := by
  simp only [State.setChan]
  rw [Vector.set_comm]
  exact fun e => h (Fin.ext e)

@[simp] theorem setChan_setChan (ch' : Channel) : (s.setChan c ch).setChan c ch' = s.setChan c ch' := by
  simp [State.setChan]

@[simp] theorem setChan_chan : s.setChan c (s.chan c) = s := by simp [State.setChan, State.chan]

/-- Two states with the same contexts, channel by channel, have the same `chans`. -/
theorem chans_ext {s t : State} (h : ∀ c, s.chan c = t.chan c) : s.chans = t.chans := by
  apply Vector.ext
  intro i hi
  exact h ⟨i, hi⟩

end SetChan

/-! ## `push` -/

section Push

variable (s : State) (words : List Word)

@[simp] theorem push_chans : (s.push words).chans = s.chans := rfl
@[simp] theorem push_chan (c : Fin 2) : (s.push words).chan c = s.chan c := rfl
@[simp] theorem push_status : (s.push words).status = s.status := rfl
@[simp] theorem push_rspq : (s.push words).rspq = s.rspq ++ words := rfl
@[simp] theorem push_pktbuf : (s.push words).pktbuf = s.pktbuf := rfl
@[simp] theorem push_pos : (s.push words).pos = s.pos := rfl
@[simp] theorem push_pending : (s.push words).pending = s.pending := rfl
@[simp] theorem push_taken : (s.push words).taken = s.taken := rfl
@[simp] theorem push_script : (s.push words).script = s.script := rfl

theorem push_setChan (c : Fin 2) (ch : Channel) : (s.push words).setChan c ch = (s.setChan c ch).push words := rfl

end Push

/-! ## `takeFault` -/

section TakeFault

variable (s : State) (c : Cause)

@[simp] theorem takeFault_chans : (s.takeFault c).chans = s.chans := rfl
@[simp] theorem takeFault_chan (d : Fin 2) : (s.takeFault c).chan d = s.chan d := rfl
@[simp] theorem takeFault_status : (s.takeFault c).status = Status.faulted c := rfl
@[simp] theorem takeFault_rspq : (s.takeFault c).rspq = s.rspq := rfl
@[simp] theorem takeFault_pktbuf : (s.takeFault c).pktbuf = s.pktbuf := rfl
@[simp] theorem takeFault_pos : (s.takeFault c).pos = s.pos := rfl
@[simp] theorem takeFault_pending : (s.takeFault c).pending = s.pending := rfl
@[simp] theorem takeFault_taken : (s.takeFault c).taken = s.taken := rfl
@[simp] theorem takeFault_script : (s.takeFault c).script = s.script := rfl

end TakeFault

@[simp] theorem faulted_fault (c : Cause) : (Status.faulted c).fault = true := rfl
@[simp] theorem faulted_cause (c : Cause) : (Status.faulted c).cause = c.code := rfl

/-! ## `consume` -/

section Consume

variable (s : State) (packet rest : List Word)

@[simp] theorem consume_chans : (s.consume packet rest).chans = s.chans := rfl
@[simp] theorem consume_chan (d : Fin 2) : (s.consume packet rest).chan d = s.chan d := rfl
@[simp] theorem consume_status : (s.consume packet rest).status = s.status := rfl
@[simp] theorem consume_rspq : (s.consume packet rest).rspq = s.rspq := rfl
@[simp] theorem consume_pktbuf : (s.consume packet rest).pktbuf = [] := rfl
@[simp] theorem consume_pos : (s.consume packet rest).pos = s.pos + packet.length := rfl
@[simp] theorem consume_pending : (s.consume packet rest).pending = rest := rfl
@[simp] theorem consume_taken : (s.consume packet rest).taken = s.taken := rfl
@[simp] theorem consume_script : (s.consume packet rest).script = s.script := rfl

end Consume

/-! ## The channel registers -/

section Registers

variable (ch : Channel)

@[simp] theorem writeHistory_coef (h1 h2 : Int) : (ch.writeHistory h1 h2).coef = ch.coef := rfl
@[simp] theorem writeHistory_pair (h1 h2 : Int) : (ch.writeHistory h1 h2).pair = ch.pair := rfl
@[simp] theorem writeHistory_hist1 (h1 h2 : Int) : (ch.writeHistory h1 h2).hist1 = pat16 h1 := rfl
@[simp] theorem writeHistory_hist2 (h1 h2 : Int) : (ch.writeHistory h1 h2).hist2 = pat16 h2 := rfl
@[simp] theorem writeCoef_hist1 (idx : Nibble) (v : I16) : (ch.writeCoef idx v).hist1 = ch.hist1 := rfl
@[simp] theorem writeCoef_hist2 (idx : Nibble) (v : I16) : (ch.writeCoef idx v).hist2 = ch.hist2 := rfl
@[simp] theorem lpcFinish_hist1 : ch.lpcFinish.hist1 = ch.hist1 := rfl
@[simp] theorem lpcFinish_hist2 : ch.lpcFinish.hist2 = ch.hist2 := rfl
@[simp] theorem lpcFinish_lpcR : ch.lpcFinish.lpcR = ch.lpcR := rfl
@[simp] theorem lpcFinish_lpcN : ch.lpcFinish.lpcN = ch.lpcN := rfl
@[simp] theorem lpcFinish_lpcCnt : ch.lpcFinish.lpcCnt = ch.lpcCnt := rfl
@[simp] theorem lpcReceive_coef (x : I16) : (ch.lpcReceive x).coef = ch.coef := rfl
@[simp] theorem lpcReceive_lpcN (x : I16) : (ch.lpcReceive x).lpcN = ch.lpcN := rfl
@[simp] theorem lpcReceive_lpcArmed (x : I16) : (ch.lpcReceive x).lpcArmed = ch.lpcArmed := rfl
@[simp] theorem lpcReceive_lpcP1 (x : I16) : (ch.lpcReceive x).lpcP1 = x := rfl
@[simp] theorem lpcReceive_lpcP2 (x : I16) : (ch.lpcReceive x).lpcP2 = ch.lpcWindow.1 := rfl
@[simp] theorem lpcReceive_lpcCnt (x : I16) : (ch.lpcReceive x).lpcCnt = ch.lpcCnt + 1#31 := rfl

/-- Reading an element after writing one (R152, R153). -/
theorem readCoef_writeCoef (i j : Nibble) (v : I16) :
    (ch.writeCoef i v).readCoef j = if j = i then v else ch.readCoef j := by
  simp only [Channel.readCoef, Channel.writeCoef, Vector.getElem_set, BitVec.toNat_inj, eq_comm]

end Registers

/-- The elements of a table written pair by pair: element `2k` is the `coef1` of pair `k` (R20). -/
theorem tableOf_even (pair : Fin 8 → Pair) (k : Fin 8) :
    (tableOf pair)[2 * k.val]'(by omega) = pat16 (pair k).1 := by fin_cases k <;> rfl

/-- Element `2k + 1` is the `coef2` of pair `k` (R20). -/
theorem tableOf_odd (pair : Fin 8 → Pair) (k : Fin 8) :
    (tableOf pair)[2 * k.val + 1]'(by omega) = pat16 (pair k).2 := by fin_cases k <;> rfl

end Sys2Proof.Machine
end

