-- ==== Sys2Proof/Laws/Ops.lean ====
section
/-! SUPPORT. What the shared operations can do: one lemma for each operand check on each side, one that says all it
can answer, and the primitives of 00_scope.md R11 to R13. -/

namespace Sys2Proof.Machine

/-! ## The operand checks -/

theorem withChannel_pos {ch : Nibble} {c : Fin 2} (h : ch.toNat = c.val) (s : State) (k : Fin 2 → Result) :
    withChannel ch s k = k c := by
  have hlt : ch.toNat < 2 := h ▸ c.isLt
  have : (⟨ch.toNat, hlt⟩ : Fin 2) = c := Fin.ext h
  simp [withChannel, hlt, this]

theorem withChannel_neg {ch : Nibble} (h : 2 ≤ ch.toNat) (s : State) (k : Fin 2 → Result) :
    withChannel ch s k = raiseFault .badChannel s := by
  simp [withChannel, Nat.not_lt.mpr h]

/-- All that check 3 can answer (R195). -/
theorem withChannel_cases (ch : Nibble) (s : State) (k : Fin 2 → Result) :
    (2 ≤ ch.toNat ∧ withChannel ch s k = .next (s.takeFault .badChannel)) ∨
      ∃ c : Fin 2, ch.toNat = c.val ∧ withChannel ch s k = k c := by
  by_cases h : ch.toNat < 2
  · exact .inr ⟨⟨ch.toNat, h⟩, rfl, withChannel_pos rfl s k⟩
  · exact .inl ⟨Nat.not_lt.mp h, withChannel_neg (Nat.not_lt.mp h) s k⟩

theorem withCell_pos {idx : Nibble} {cell : Fin 2} (h : idx.toNat = cell.val) (s : State) (k : Fin 2 → Result) :
    withCell idx s k = k cell := by
  have hlt : idx.toNat < 2 := h ▸ cell.isLt
  have : (⟨idx.toNat, hlt⟩ : Fin 2) = cell := Fin.ext h
  simp [withCell, hlt, this]

theorem withCell_neg {idx : Nibble} (h : 2 ≤ idx.toNat) (s : State) (k : Fin 2 → Result) :
    withCell idx s k = raiseFault .badIndex s := by
  simp [withCell, Nat.not_lt.mpr h]

/-- All that check 4 of the history operations can answer (R195). -/
theorem withCell_cases (idx : Nibble) (s : State) (k : Fin 2 → Result) :
    (2 ≤ idx.toNat ∧ withCell idx s k = .next (s.takeFault .badIndex)) ∨
      ∃ cell : Fin 2, idx.toNat = cell.val ∧ withCell idx s k = k cell := by
  by_cases h : idx.toNat < 2
  · exact .inr ⟨⟨idx.toNat, h⟩, rfl, withCell_pos rfl s k⟩
  · exact .inl ⟨Nat.not_lt.mp h, withCell_neg (Nat.not_lt.mp h) s k⟩

theorem withLength_pos {len : Nibble} (h1 : 1 ≤ len.toNat) (h2 : len.toNat ≤ 14) (s : State) (k : Nat → Result) :
    withLength len s k = k len.toNat := by
  have : ¬(len.toNat = 0 ∨ len.toNat = 15) := by omega
  simp [withLength, this]

/-- All that check 4 of `ENC_BLOCK` can answer (R195). -/
theorem withLength_cases (len : Nibble) (s : State) (k : Nat → Result) :
    ((len.toNat = 0 ∨ len.toNat = 15) ∧ withLength len s k = .next (s.takeFault .badIndex)) ∨
      (1 ≤ len.toNat ∧ len.toNat ≤ 14 ∧ withLength len s k = k len.toNat) := by
  by_cases h : len.toNat = 0 ∨ len.toNat = 15
  · exact .inl ⟨h, by simp [withLength, h, raiseFault]⟩
  · have := len.isLt
    exact .inr ⟨by omega, by omega, by simp [withLength, h]⟩

/-! ## Arithmetic -/

/-- `clamp` as a bounded minimum and maximum. -/
theorem clamp_eq_max_min {lo hi : Int} (h : lo ≤ hi) (v : Int) : clamp v lo hi = max lo (min hi v) := by
  unfold clamp
  split
  · omega
  · split <;> omega

/-- `clamp16` as a bounded minimum and maximum. -/
theorem clamp16_eq (v : Int) : clamp16 v = max (-32768) (min 32767 v) := clamp_eq_max_min (by decide) v

theorem clamp_mem {lo hi : Int} (h : lo ≤ hi) (v : Int) : lo ≤ clamp v lo hi ∧ clamp v lo hi ≤ hi := by
  rw [clamp_eq_max_min h]
  omega

theorem clamp16_mem (v : Int) : -32768 ≤ clamp16 v ∧ clamp16 v ≤ 32767 := clamp_mem (by decide) v

theorem asr_eleven (a : Int) : asr a Config.coefFrac = a / 2048 := rfl

/-- A pattern of an `int16` reads back as itself (R10). -/
theorem toInt_pat16 {v : Int} (h1 : -32768 ≤ v) (h2 : v ≤ 32767) : (pat16 v).toInt = v := by
  rw [pat16, BitVec.toInt_ofInt]
  exact Int.bmod_eq_of_le (by omega) (by omega)

theorem zext32_eq (v : I16) : zext32 v = BitVec.ofNat 32 v.toNat := by
  apply BitVec.eq_of_toNat_eq
  simp [zext32]

/-- Every pattern reads as an `int16`. -/
theorem toInt_mem (v : I16) : -32768 ≤ v.toInt ∧ v.toInt ≤ 32767 := by
  have h1 := BitVec.le_toInt v
  have h2 := BitVec.toInt_lt (x := v)
  constructor <;> simp at h1 h2 <;> omega

/-- `rdiv` is a nearest integer, ties toward plus infinity (R13). -/
theorem rdiv_nearest (a : Int) {b : Int} (hb : 0 < b) :
    -b ≤ 2 * (a - b * rdiv a b) ∧ 2 * (a - b * rdiv a b) < b := by
  have h1 := Int.mul_ediv_self_le (x := 2 * a + b) (k := 2 * b) (by omega)
  have h2 := Int.lt_mul_ediv_self_add (x := 2 * a + b) (k := 2 * b) (by omega)
  have e : 2 * (b * rdiv a b) = 2 * b * ((2 * a + b) / (2 * b)) := by rw [rdiv]; ring
  constructor <;> linarith

end Sys2Proof.Machine
end

