-- ==== Sys2Proof/Laws/Decoder.lean ====
section
/-! SUPPORT. Laws of the nibble codec and the decoder: the frame's fields as numbers, one sample, and the samples of a
frame as a recurrence over the history. -/

namespace Sys2Proof.Machine

/-! ## Nibbles and frame fields -/

theorem nibDec_eq (u : Nibble) : nibDec u = if u.toNat < 8 then (u.toNat : Int) else u.toNat - 16 := by
  revert u
  decide

theorem nibEnc_toNat (v : Int) : ((nibEnc v).toNat : Int) = v % 16 := by
  simp only [nibEnc, BitVec.toNat_ofInt]
  omega

/-- The codec's map inverts on its range (R82 (b)). -/
theorem nibDec_nibEnc {v : Int} (h1 : -8 ≤ v) (h2 : v ≤ 7) : nibDec (nibEnc v) = v := by
  rw [nibDec_eq]
  have := nibEnc_toNat v
  split <;> omega

theorem frameIndex_eq (f : Frame) : frameIndex f = f[0].toNat / 16 := by
  have := f[0].isLt
  simp only [frameIndex, BitVec.extractLsb'_toNat, Nat.shiftRight_eq_div_pow]
  omega

theorem frameExp_eq (f : Frame) : frameExp f = f[0].toNat % 16 := by
  simp only [frameExp, BitVec.extractLsb'_toNat, Nat.shiftRight_eq_div_pow]
  omega

theorem frameNibbles_length (f : Frame) : (frameNibbles f).length = 14 := rfl

/-! ## Samples -/

theorem decodeSample_mem (pair : Pair) (h1 h2 n : Int) (exp : Nat) :
    -32768 ≤ decodeSample pair h1 h2 n exp ∧ decodeSample pair h1 h2 n exp ≤ 32767 := clamp16_mem _

/-- The additive form of R113 (b). -/
theorem decodeSample_additive (pair : Pair) (h1 h2 n : Int) (exp : Nat) :
    decodeSample pair h1 h2 n exp = clamp16 (n * scaleOf exp + (1024 + predict pair h1 h2) / 2048) := by
  have e : accumulate pair h1 h2 n exp = 1024 + predict pair h1 h2 + n * scaleOf exp * 2048 := by
    show n * scaleOf exp * 2 ^ 11 + 1024 + predict pair h1 h2 = _
    ring
  rw [decodeSample, asr_eleven, e, Int.add_mul_ediv_right _ _ (by decide), Int.add_comm]

theorem decodeResiduals_length (pair : Pair) (exp : Nat) :
    ∀ (ns : List Int) (h1 h2 : Int), (decodeResiduals pair exp h1 h2 ns).1.length = ns.length
  | [], _, _ => rfl
  | n :: ns, h1, h2 => by simp [decodeResiduals, decodeResiduals_length pair exp ns]

/-- The history before and the samples of `decodeResiduals`, oldest first. -/
def decodeTrace (pair : Pair) (exp : Nat) (h1 h2 : Int) (ns : List Int) : List Int :=
  h2 :: h1 :: (decodeResiduals pair exp h1 h2 ns).1

/-- Every sample comes from the two before it and its residual (R112, R114). -/
theorem decodeTrace_step (pair : Pair) (exp : Nat) : ∀ (ns : List Int) (h1 h2 : Int) (j : Nat), j < ns.length →
    (decodeTrace pair exp h1 h2 ns).getD (j + 2) 0 =
      decodeSample pair ((decodeTrace pair exp h1 h2 ns).getD (j + 1) 0)
        ((decodeTrace pair exp h1 h2 ns).getD j 0) (ns.getD j 0) exp
  | [], _, _, _, h => absurd h (Nat.not_lt_zero _)
  | _ :: _, _, _, 0, _ => rfl
  | n :: ns, h1, h2, j + 1, h => decodeTrace_step pair exp ns (decodeSample pair h1 h2 n exp) h1 j (Nat.lt_of_succ_lt_succ h)

/-- The history at the end is the last two entries of the trace (R116). -/
theorem decodeResiduals_history (pair : Pair) (exp : Nat) : ∀ (ns : List Int) (h1 h2 : Int),
    (decodeResiduals pair exp h1 h2 ns).2.1 = (decodeTrace pair exp h1 h2 ns).getD (ns.length + 1) 0 ∧
      (decodeResiduals pair exp h1 h2 ns).2.2 = (decodeTrace pair exp h1 h2 ns).getD ns.length 0
  | [], _, _ => ⟨rfl, rfl⟩
  | n :: ns, h1, h2 => decodeResiduals_history pair exp ns (decodeSample pair h1 h2 n exp) h1

/-- Every sample is an `int16` (R121). -/
theorem decodeResiduals_mem (pair : Pair) (exp : Nat) : ∀ (ns : List Int) (h1 h2 : Int),
    ∀ y ∈ (decodeResiduals pair exp h1 h2 ns).1, -32768 ≤ y ∧ y ≤ 32767
  | [], _, _ => by simp [decodeResiduals]
  | n :: ns, h1, h2 => by
    intro y hy
    simp only [decodeResiduals, List.mem_cons] at hy
    rcases hy with rfl | hy
    · exact decodeSample_mem _ _ _ _ _
    · exact decodeResiduals_mem pair exp ns _ _ y hy

theorem decodeFrame_length (pair : Pair) (h1 h2 : Int) (f : Frame) : (decodeFrame pair h1 h2 f).1.length = 14 := by
  rw [decodeFrame, decodeResiduals_length, List.length_map, frameNibbles_length]

/-- The history after decoding from an `int16` history is an `int16` history (R114, R121). -/
theorem decodeResiduals_history_mem (pair : Pair) (exp : Nat) : ∀ (ns : List Int) (h1 h2 : Int),
    (-32768 ≤ h1 ∧ h1 ≤ 32767) → (-32768 ≤ h2 ∧ h2 ≤ 32767) →
    (-32768 ≤ (decodeResiduals pair exp h1 h2 ns).2.1 ∧ (decodeResiduals pair exp h1 h2 ns).2.1 ≤ 32767) ∧
      (-32768 ≤ (decodeResiduals pair exp h1 h2 ns).2.2 ∧ (decodeResiduals pair exp h1 h2 ns).2.2 ≤ 32767)
  | [], _, _, a, b => ⟨a, b⟩
  | n :: ns, h1, h2, a, _ =>
    decodeResiduals_history_mem pair exp ns (decodeSample pair h1 h2 n exp) h1 (decodeSample_mem _ _ _ _ _) a

/-- Fourteen samples a frame, as long as every frame selects a pair (R120). -/
theorem decodeFrames_length (table : Fin 8 → Pair) : ∀ (fs : List Frame) (h1 h2 : Int),
    (∀ f ∈ fs, frameIndex f < 8) → (decodeFrames table h1 h2 fs).length = 14 * fs.length
  | [], _, _, _ => rfl
  | f :: fs, h1, h2, h => by
    rw [decodeFrames, dif_pos (h f (by simp))]
    simp only [List.length_append, decodeFrame_length, List.length_cons,
      decodeFrames_length table fs _ _ (fun g hg => h g (by simp [hg]))]
    omega

/-! ## Response words -/

theorem packSamples_length : ∀ ys : List Int, (packSamples ys).length = ys.length / 2
  | [] => rfl
  | [_] => by simp [packSamples]
  | _ :: _ :: rest => by simp only [packSamples, List.length_cons, packSamples_length rest]; omega

/-- Packing goes frame by frame: an even number of samples packs before what follows. -/
theorem packSamples_append : ∀ (xs ys : List Int), xs.length % 2 = 0 →
    packSamples (xs ++ ys) = packSamples xs ++ packSamples ys
  | [], _, _ => rfl
  | [_], _, h => by simp at h
  | a :: b :: rest, ys, h => by
    have h' : rest.length % 2 = 0 := by simp only [List.length_cons] at h; omega
    simp only [List.cons_append, packSamples, packSamples_append rest ys h']

end Sys2Proof.Machine
end

