-- ==== Sys2Proof/Laws/Encoder.lean ====
section
/-! SUPPORT. Laws of the encoder: the quantiser's range, a trial as a trial decoding, the search as a least element,
and the fields of an assembled frame. -/

namespace Sys2Proof.Machine

/-! ## One sample and one trial -/

theorem scaleOf_pos (exp : Nat) : 0 < scaleOf exp := by
  unfold scaleOf
  positivity

theorem quantise_mem (pair : Pair) (h1 h2 : Int) (exp : Nat) (t : Int) :
    -8 ≤ quantise pair h1 h2 exp t ∧ quantise pair h1 h2 exp t ≤ 7 := clamp_mem (by decide) _

/-- The residuals of a trial are nibbles (R81, R133). -/
theorem trial_residuals_mem (pair : Pair) (exp : Nat) : ∀ (ts : List Int) (h1 h2 : Int),
    ∀ q ∈ (trial pair exp h1 h2 ts).2, -8 ≤ q ∧ q ≤ 7
  | [], _, _ => by simp [trial]
  | t :: ts, h1, h2 => by
    intro q hq
    simp only [trial, List.mem_cons] at hq
    rcases hq with rfl | hq
    · exact quantise_mem _ _ _ _ _
    · exact trial_residuals_mem pair exp ts _ _ q hq

theorem trial_residuals_length (pair : Pair) (exp : Nat) : ∀ (ts : List Int) (h1 h2 : Int),
    (trial pair exp h1 h2 ts).2.length = ts.length
  | [], _, _ => rfl
  | t :: ts, h1, h2 => by simp [trial, trial_residuals_length pair exp ts]

/-- Each residual is the quantiser's on the two samples before it, read off the trace of the trial decoding: `h2`, `h1`,
then its samples (R133, R134). -/
theorem trial_residual (pair : Pair) (exp : Nat) : ∀ (ts : List Int) (h1 h2 : Int) (j : Nat), j < ts.length →
    let r := trial pair exp h1 h2 ts
    let trace := h2 :: h1 :: (decodeResiduals pair exp h1 h2 r.2).1
    r.2.getD j 0 = quantise pair (trace.getD (j + 1) 0) (trace.getD j 0) exp (ts.getD j 0)
  | [], _, _, _, h => absurd h (Nat.not_lt_zero _)
  | _ :: _, _, _, 0, _ => rfl
  | _ :: ts, _, _, j + 1, h => trial_residual pair exp ts _ _ j (Nat.lt_of_succ_lt_succ h)

/-- A trial's error is that of decoding its own residuals (R132, R134). -/
theorem trial_err (pair : Pair) (exp : Nat) : ∀ (ts : List Int) (h1 h2 : Int),
    (trial pair exp h1 h2 ts).1 =
      (List.zipWith squaredError ts (decodeResiduals pair exp h1 h2 (trial pair exp h1 h2 ts).2).1).sum
  | [], _, _ => rfl
  | t :: ts, h1, h2 => by
    simp only [trial, decodeResiduals, List.zipWith_cons_cons, List.sum_cons]
    rw [← trial_err pair exp ts]

theorem squaredError_nonneg (t y : Int) : 0 ≤ squaredError t y := mul_self_nonneg _

theorem trial_err_nonneg (pair : Pair) (exp : Nat) : ∀ (ts : List Int) (h1 h2 : Int),
    0 ≤ (trial pair exp h1 h2 ts).1
  | [], _, _ => Int.le_refl 0
  | _ :: ts, _, _ => Int.add_nonneg (squaredError_nonneg _ _) (trial_err_nonneg pair exp ts _ _)

/-- A trial's error for `int16` targets (R134). -/
theorem trial_err_le (pair : Pair) (exp : Nat) : ∀ (ts : List Int) (h1 h2 : Int),
    (∀ t ∈ ts, -32768 ≤ t ∧ t ≤ 32767) → (trial pair exp h1 h2 ts).1 ≤ ts.length * 65535 ^ 2
  | [], _, _, _ => by simp [trial]
  | t :: ts, h1, h2, h => by
    have ih := trial_err_le pair exp ts (decodeSample pair h1 h2 (quantise pair h1 h2 exp t) exp) h1
      (fun u hu => h u (by simp [hu]))
    have ht := h t (by simp)
    have hy := decodeSample_mem pair h1 h2 (quantise pair h1 h2 exp t) exp
    have : squaredError t (decodeSample pair h1 h2 (quantise pair h1 h2 exp t) exp) ≤ 65535 ^ 2 := by
      unfold squaredError
      nlinarith
    simp only [trial, List.length_cons]
    push_cast
    linarith

/-! ## The search -/

/-- Position of a choice in the search order (R135). -/
def choiceRank (choice : Fin 8 × Fin 16) : Nat := 16 * choice.1.val + choice.2.val

/-- What the search keeps over a rising list of choices: the best candidate is one of those tried, none tried has a
lesser error, and those of an equal error come no earlier. -/
theorem foldl_better (table : Fin 8 → Pair) (h1 h2 : Int) (ts : List Int) :
    ∀ (later tried : List (Fin 8 × Fin 16)) (at_ : Fin 8 × Fin 16),
      later.Pairwise (fun a b => choiceRank a < choiceRank b) →
      (∀ a ∈ tried, ∀ b ∈ later, choiceRank a < choiceRank b) → at_ ∈ tried →
      (∀ a ∈ tried, (candidate table h1 h2 ts at_.1 at_.2).err ≤ (candidate table h1 h2 ts a.1 a.2).err ∧
        ((candidate table h1 h2 ts a.1 a.2).err = (candidate table h1 h2 ts at_.1 at_.2).err →
          choiceRank at_ ≤ choiceRank a)) →
      ∃ won ∈ tried ++ later,
        later.foldl (fun best choice => better best (candidate table h1 h2 ts choice.1 choice.2))
            (candidate table h1 h2 ts at_.1 at_.2) = candidate table h1 h2 ts won.1 won.2 ∧
        ∀ a ∈ tried ++ later, (candidate table h1 h2 ts won.1 won.2).err ≤ (candidate table h1 h2 ts a.1 a.2).err ∧
          ((candidate table h1 h2 ts a.1 a.2).err = (candidate table h1 h2 ts won.1 won.2).err →
            choiceRank won ≤ choiceRank a)
  | [], tried, at_, _, _, hat, hbest => ⟨at_, by simpa using hat, rfl, by simpa using hbest⟩
  | x :: later, tried, at_, hp, hlt, hat, hbest => by
    rw [List.pairwise_cons] at hp
    have hlt' : ∀ a ∈ tried ++ [x], ∀ b ∈ later, choiceRank a < choiceRank b := by
      intro a ha b hb
      rcases List.mem_append.mp ha with ha | ha
      · exact hlt a ha b (by simp [hb])
      · obtain rfl : a = x := by simpa using ha
        exact hp.1 b hb
    rw [List.foldl_cons, better]
    by_cases hx : (candidate table h1 h2 ts x.1 x.2).err < (candidate table h1 h2 ts at_.1 at_.2).err
    · rw [if_pos hx]
      have := foldl_better table h1 h2 ts later (tried ++ [x]) x hp.2 hlt' (by simp) (by
        intro a ha
        rcases List.mem_append.mp ha with ha | ha
        · have := (hbest a ha).1
          exact ⟨by omega, fun e => by omega⟩
        · obtain rfl : a = x := by simpa using ha
          exact ⟨Int.le_refl _, fun _ => Nat.le_refl _⟩)
      simpa using this
    · rw [if_neg hx]
      have := foldl_better table h1 h2 ts later (tried ++ [x]) at_ hp.2 hlt' (by simp [hat]) (by
        intro a ha
        rcases List.mem_append.mp ha with ha | ha
        · exact hbest a ha
        · obtain rfl : a = x := by simpa using ha
          exact ⟨by omega, fun _ => Nat.le_of_lt (hlt at_ hat a (by simp))⟩)
      simpa using this

theorem choices_complete : ∀ choice : Fin 8 × Fin 16, choice ∈ [((0 : Fin 8), (0 : Fin 16))] ++ laterChoices := by
  decide +kernel

theorem choices_rising : laterChoices.Pairwise (fun a b => choiceRank a < choiceRank b) := by decide +kernel

theorem first_choice : ∀ b ∈ laterChoices, choiceRank (0, 0) < choiceRank b := by decide +kernel

/-- The search gives the candidate of least error and, of these, the one that comes first (R135). -/
theorem bestCandidate_spec (table : Fin 8 → Pair) (h1 h2 : Int) (ts : List Int) :
    ∃ (idx : Fin 8) (exp : Fin 16), bestCandidate table h1 h2 ts = candidate table h1 h2 ts idx exp ∧
      ∀ (idx' : Fin 8) (exp' : Fin 16),
        (candidate table h1 h2 ts idx exp).err ≤ (candidate table h1 h2 ts idx' exp').err ∧
        ((candidate table h1 h2 ts idx' exp').err = (candidate table h1 h2 ts idx exp).err →
          choiceRank (idx, exp) ≤ choiceRank (idx', exp')) := by
  obtain ⟨won, -, e, hwon⟩ := foldl_better table h1 h2 ts laterChoices [(0, 0)] (0, 0) choices_rising
    (by simpa using first_choice) (by simp)
    (by
      intro a ha
      obtain rfl : a = (0, 0) := by simpa using ha
      exact ⟨Int.le_refl _, fun _ => Nat.le_refl _⟩)
  exact ⟨won.1, won.2, e, fun idx exp => hwon (idx, exp) (choices_complete _)⟩

/-! ## Frames -/

theorem assembleFrame_header (c : Candidate) : (assembleFrame c)[0].toNat = 16 * c.idx.val + c.exp.val := by
  show (BitVec.ofNat 4 c.idx.val ++ BitVec.ofNat 4 c.exp.val : BitVec 8).toNat = _
  rw [toNat_append_eq, BitVec.toNat_ofNat, BitVec.toNat_ofNat]
  omega

/-- The data bytes of a frame, two residuals in each (R137). -/
theorem assembleFrame_data (c : Candidate) (m : Fin 7) : (assembleFrame c)[1 + m.val]'(by omega) =
    packResiduals (c.residuals.getD (2 * m.val) 0) (c.residuals.getD (2 * m.val + 1) 0) := by
  fin_cases m <;> rfl

theorem assembleFrame_index (c : Candidate) : frameIndex (assembleFrame c) = c.idx.val := by
  rw [frameIndex_eq, assembleFrame_header]
  omega

theorem assembleFrame_exp (c : Candidate) : frameExp (assembleFrame c) = c.exp.val := by
  rw [frameExp_eq, assembleFrame_header]
  omega

theorem byteNibbles_packResiduals {q0 q1 : Int} (h0 : -8 ≤ q0 ∧ q0 ≤ 7) (h1 : -8 ≤ q1 ∧ q1 ≤ 7) :
    (byteNibbles (packResiduals q0 q1)).map nibDec = [q0, q1] := by
  have e0 : (packResiduals q0 q1).extractLsb' 4 4 = nibEnc q0 := by
    apply BitVec.eq_of_toNat_eq
    have := (nibEnc q0).isLt
    have := (nibEnc q1).isLt
    simp only [packResiduals, BitVec.extractLsb'_toNat, toNat_append_eq, Nat.shiftRight_eq_div_pow]
    omega
  have e1 : (packResiduals q0 q1).extractLsb' 0 4 = nibEnc q1 := by
    apply BitVec.eq_of_toNat_eq
    have := (nibEnc q0).isLt
    have := (nibEnc q1).isLt
    simp only [packResiduals, BitVec.extractLsb'_toNat, toNat_append_eq, Nat.shiftRight_eq_div_pow]
    omega
  rw [byteNibbles, List.map_cons, List.map_cons, List.map_nil, e0, e1, nibDec_nibEnc h0.1 h0.2, nibDec_nibEnc h1.1 h1.2]

theorem getD_range14 {qs : List Int} (h : qs.length = 14) :
    qs = [qs.getD 0 0, qs.getD 1 0, qs.getD 2 0, qs.getD 3 0, qs.getD 4 0, qs.getD 5 0, qs.getD 6 0, qs.getD 7 0,
      qs.getD 8 0, qs.getD 9 0, qs.getD 10 0, qs.getD 11 0, qs.getD 12 0, qs.getD 13 0] := by
  apply List.ext_getElem
  · simp [h]
  · intro i h1 h2
    rw [h] at h1
    interval_cases i <;> simp [h]

/-- A frame read back gives the residuals it was assembled from (R111, R137). -/
theorem assembleFrame_residuals {c : Candidate} (hl : c.residuals.length = 14)
    (hq : ∀ q ∈ c.residuals, -8 ≤ q ∧ q ≤ 7) : (frameNibbles (assembleFrame c)).map nibDec = c.residuals := by
  have hj : ∀ j, j < 14 → -8 ≤ c.residuals.getD j 0 ∧ c.residuals.getD j 0 ≤ 7 := by
    intro j h
    rw [List.getD_eq_getElem _ _ (by omega)]
    exact hq _ (List.getElem_mem _)
  conv_rhs => rw [getD_range14 hl]
  show List.map nibDec (byteNibbles (packResiduals (c.residuals.getD 0 0) (c.residuals.getD 1 0)) ++
    byteNibbles (packResiduals (c.residuals.getD 2 0) (c.residuals.getD 3 0)) ++
    byteNibbles (packResiduals (c.residuals.getD 4 0) (c.residuals.getD 5 0)) ++
    byteNibbles (packResiduals (c.residuals.getD 6 0) (c.residuals.getD 7 0)) ++
    byteNibbles (packResiduals (c.residuals.getD 8 0) (c.residuals.getD 9 0)) ++
    byteNibbles (packResiduals (c.residuals.getD 10 0) (c.residuals.getD 11 0)) ++
    byteNibbles (packResiduals (c.residuals.getD 12 0) (c.residuals.getD 13 0))) = _
  simp only [List.map_append]
  rw [byteNibbles_packResiduals (hj 0 (by decide)) (hj 1 (by decide)),
    byteNibbles_packResiduals (hj 2 (by decide)) (hj 3 (by decide)),
    byteNibbles_packResiduals (hj 4 (by decide)) (hj 5 (by decide)),
    byteNibbles_packResiduals (hj 6 (by decide)) (hj 7 (by decide)),
    byteNibbles_packResiduals (hj 8 (by decide)) (hj 9 (by decide)),
    byteNibbles_packResiduals (hj 10 (by decide)) (hj 11 (by decide)),
    byteNibbles_packResiduals (hj 12 (by decide)) (hj 13 (by decide))]
  rfl

/-- Decoding an emitted frame is the trial decoding that won the search (R132). -/
theorem decodeFrame_assembleFrame (pair : Pair) (h1 h2 : Int) {c : Candidate} (hl : c.residuals.length = 14)
    (hq : ∀ q ∈ c.residuals, -8 ≤ q ∧ q ≤ 7) :
    decodeFrame pair h1 h2 (assembleFrame c) = decodeResiduals pair c.exp.val h1 h2 c.residuals := by
  rw [decodeFrame, assembleFrame_exp, assembleFrame_residuals hl hq]

/-- An emitted frame selects one of the eight pairs (R136). -/
theorem encodeFrame_index (table : Fin 8 → Pair) (h1 h2 : Int) (ts : List Int) :
    frameIndex (encodeFrame table h1 h2 ts) < 8 := by
  rw [encodeFrame, assembleFrame_index]
  exact Fin.isLt _

theorem encodeBlocks_length (table : Fin 8 → Pair) : ∀ (bs : List (List Int)) (h1 h2 : Int),
    (encodeBlocks table h1 h2 bs).length = bs.length
  | [], _, _ => rfl
  | b :: bs, _, _ => by simp [encodeBlocks, encodeBlocks_length table bs]

theorem encodeBlocks_index (table : Fin 8 → Pair) : ∀ (bs : List (List Int)) (h1 h2 : Int),
    ∀ f ∈ encodeBlocks table h1 h2 bs, frameIndex f < 8
  | [], _, _ => by simp [encodeBlocks]
  | b :: bs, h1, h2 => by
    intro f hf
    simp only [encodeBlocks, List.mem_cons] at hf
    rcases hf with rfl | hf
    · exact encodeFrame_index _ _ _ _
    · exact encodeBlocks_index table bs _ _ f hf

/-! ## Targets -/

theorem paddedTargets_length {len : Nat} (h : len ≤ 14) (b : Block) : (paddedTargets len b).length = 14 := by
  simp only [paddedTargets, List.length_append, List.length_take, List.length_map, Vector.length_toList,
    List.length_replicate, Config.frameSamples]
  omega

/-- The targets of a block, position by position (R131, R140). -/
theorem paddedTargets_eq {len : Nat} (h : len ≤ 14) (b : Block) :
    paddedTargets len b = List.ofFn (fun j : Fin 14 => if j.val < len then (b[j.val]).toInt else 0) := by
  apply List.ext_getElem
  · simp [paddedTargets_length h]
  · intro i h1 h2
    simp only [paddedTargets, List.getElem_append, List.getElem_take, List.getElem_map, List.getElem_ofFn,
      List.length_take, List.length_map, Vector.length_toList, List.getElem_replicate, Vector.getElem_toList]
    have : i < 14 := by simpa using h2
    by_cases hi : i < len
    · rw [dif_pos (by omega), if_pos hi]
    · rw [dif_neg (by omega), if_neg hi]

end Sys2Proof.Machine
end

