-- ==== Sys2Proof/Laws/Exec.lean ====
section
/-! SUPPORT. What an operation can do, said once: an operation with a channel operand is a function of that channel's
context alone, whose answer is a fault or a new context and response words; the four others are equations. -/

namespace Sys2Proof.Machine

/-- What an operation on a channel answers, from the channel's context alone (20_memory.md R52): the cause of a fault,
or the new context and the words to push. -/
abbrev Effect := Channel → Except Cause (Channel × List Word)

/-- Apply an effect to channel `c` of a state. -/
def State.applyEffect (s : State) (c : Fin 2) (f : Effect) : State :=
  match f (s.chan c) with
  | .error cause => s.takeFault cause
  | .ok (ch, words) => (s.setChan c ch).push words

@[simp] theorem push_nil (s : State) : s.push [] = s := by simp [State.push]

/-- An operation on channel `c` is an effect on that channel and nothing else (20_memory.md R52, 60_exceptions.md
R194). -/
theorem exec_eq_applyEffect {i : Instr} {ch : Nibble} {c : Fin 2} (hi : i.channel = some ch) (hc : ch.toNat = c.val) :
    ∃ f : Effect, ∀ s, exec i s = .next (s.applyEffect c f) := by
  cases i with
  | nop | softReset | nibDec | nibEnc => cases hi
  | coefWr ch' idx v =>
    cases hi
    exact ⟨fun x => .ok (x.writeCoef idx v, []), fun s => by
      simp [exec, execCoefWr, withChannel_pos hc, State.applyEffect]⟩
  | coefRd ch' idx =>
    cases hi
    exact ⟨fun x => .ok (x, [zext32 (x.readCoef idx)]), fun s => by
      simp [exec, execCoefRd, withChannel_pos hc, State.applyEffect]⟩
  | histWr ch' idx v =>
    cases hi
    refine ⟨fun x => if h : idx.toNat < 2 then .ok (x.writeHist ⟨idx.toNat, h⟩ v, []) else .error .badIndex, fun s => ?_⟩
    by_cases h : idx.toNat < 2 <;>
      simp [exec, execHistWr, withChannel_pos hc, withCell, State.applyEffect, h, raiseFault]
  | histRd ch' idx =>
    cases hi
    refine ⟨fun x => if h : idx.toNat < 2 then .ok (x, [zext32 (x.readHist ⟨idx.toNat, h⟩)]) else .error .badIndex,
      fun s => ?_⟩
    by_cases h : idx.toNat < 2 <;>
      simp [exec, execHistRd, withChannel_pos hc, withCell, State.applyEffect, h, raiseFault]
  | passStart ch' =>
    cases hi
    exact ⟨fun x => .ok (x.writeHistory 0 0, []), fun s => by
      simp [exec, execPassStart, withChannel_pos hc, State.applyEffect]⟩
  | decFrame ch' f =>
    cases hi
    refine ⟨fun x => if h : frameIndex f < 8 then
        let r := decodeFrame (x.pair ⟨frameIndex f, h⟩) x.hist1.toInt x.hist2.toInt f
        .ok (x.writeHistory r.2.1 r.2.2, packSamples r.1)
      else .error .coefIndex, fun s => ?_⟩
    by_cases h : frameIndex f < 8 <;>
      simp [exec, execDecFrame, withChannel_pos hc, decodeInto, State.applyEffect, h, raiseFault]
  | encBlock ch' len b =>
    cases hi
    refine ⟨fun x => if len.toNat = 0 ∨ len.toNat = 15 then .error .badIndex else
        let t := paddedTargets len.toNat b
        .ok (x.writeHistory (t.getD 13 0) (t.getD 12 0),
          frameWords (encodeFrame x.pair x.hist1.toInt x.hist2.toInt t)), fun s => ?_⟩
    by_cases h : len.toNat = 0 ∨ len.toNat = 15 <;>
      simp [exec, execEncBlock, withChannel_pos hc, withLength, encodeInto, State.applyEffect, h, raiseFault]
  | lpcStart ch' n =>
    cases hi
    refine ⟨fun x => if n.toNat < 2 ^ 31 then .ok (x.lpcArm (n.setWidth 31), []) else .error .lpcLength, fun s => ?_⟩
    by_cases h : n.toNat < 2 ^ 31 <;>
      simp only [exec, execLpcStart, withChannel_pos hc, State.applyEffect, h, raiseFault, if_true, if_false, push_nil]
  | lpcSample ch' x =>
    cases hi
    refine ⟨fun y => if y.lpcArmed = true ∧ y.lpcCnt < y.lpcN then .ok (y.lpcReceive x, []) else .error .lpcSequence,
      fun s => ?_⟩
    by_cases h : (s.chan c).lpcArmed = true ∧ (s.chan c).lpcCnt < (s.chan c).lpcN <;>
      simp only [exec, execLpcSample, withChannel_pos hc, State.applyEffect, h, raiseFault, if_true, if_false, push_nil,
        and_self]
  | lpcSolve ch' =>
    cases hi
    refine ⟨fun y => if y.lpcArmed = true ∧ y.lpcCnt = y.lpcN then .ok (y.lpcFinish, []) else .error .lpcSequence,
      fun s => ?_⟩
    by_cases h : (s.chan c).lpcArmed = true ∧ (s.chan c).lpcCnt = (s.chan c).lpcN <;>
      simp only [exec, execLpcSolve, withChannel_pos hc, State.applyEffect, h, raiseFault, if_true, if_false, push_nil,
        and_self]

/-- An operation whose `CH` field names no channel takes `BAD_CHANNEL` (R195 check 3). -/
theorem exec_badChannel {i : Instr} {ch : Nibble} (hi : i.channel = some ch) (hc : 2 ≤ ch.toNat) (s : State) :
    exec i s = .next (s.takeFault .badChannel) := by
  cases i with
  | nop | softReset | nibDec | nibEnc => cases hi
  | coefWr | coefRd | histWr | histRd | passStart | decFrame | encBlock | lpcStart | lpcSample | lpcSolve =>
    cases hi
    simp only [exec, execCoefWr, execCoefRd, execHistWr, execHistRd, execPassStart, execDecFrame, execEncBlock,
      execLpcStart, execLpcSample, execLpcSolve, withChannel_neg hc, raiseFault]

/-- The four operations without a channel operand. -/
theorem exec_noChannel {i : Instr} (hi : i.channel = none) (s : State) :
    (i = .nop ∧ exec i s = .next s) ∨ (i = .softReset ∧ exec i s = .next s.clearChannels) ∨
      (∃ u, i = .nibDec u ∧ exec i s = .next (s.push [byteResponse (nibDec u)])) ∨
      ∃ b, i = .nibEnc b ∧ exec i s = .next (s.push [(nibEnc b.toInt).setWidth 32]) := by
  cases i with
  | nop => exact .inl ⟨rfl, rfl⟩
  | softReset => exact .inr (.inl ⟨rfl, rfl⟩)
  | nibDec u => exact .inr (.inr (.inl ⟨u, rfl, rfl⟩))
  | nibEnc b => exact .inr (.inr (.inr ⟨b, rfl, rfl⟩))
  | coefWr | coefRd | histWr | histRd | passStart | decFrame | encBlock | lpcStart | lpcSample | lpcSolve => cases hi

/-! ## Each operation on a channel that exists, its checks passed -/

section OnChannel

variable {ch : Nibble} {c : Fin 2} (hc : ch.toNat = c.val) (s : State)

include hc

theorem exec_coefWr (idx : Nibble) (v : I16) :
    exec (.coefWr ch idx v) s = .next (s.setChan c ((s.chan c).writeCoef idx v)) := by
  simp only [exec, execCoefWr, withChannel_pos hc]

theorem exec_coefRd (idx : Nibble) : exec (.coefRd ch idx) s = .next (s.push [zext32 ((s.chan c).readCoef idx)]) := by
  simp only [exec, execCoefRd, withChannel_pos hc]

theorem exec_histWr {idx : Nibble} {cell : Fin 2} (hi : idx.toNat = cell.val) (v : I16) :
    exec (.histWr ch idx v) s = .next (s.setChan c ((s.chan c).writeHist cell v)) := by
  simp only [exec, execHistWr, withChannel_pos hc, withCell_pos hi]

theorem exec_histRd {idx : Nibble} {cell : Fin 2} (hi : idx.toNat = cell.val) :
    exec (.histRd ch idx) s = .next (s.push [zext32 ((s.chan c).readHist cell)]) := by
  simp only [exec, execHistRd, withChannel_pos hc, withCell_pos hi]

theorem exec_passStart : exec (.passStart ch) s = .next (s.setChan c ((s.chan c).writeHistory 0 0)) := by
  simp only [exec, execPassStart, withChannel_pos hc]

theorem exec_decFrame {f : Frame} {k : Fin 8} (hk : frameIndex f = k.val) :
    exec (.decFrame ch f) s = .next (decodeInto c k f s) := by
  have hlt : frameIndex f < 8 := hk ▸ k.isLt
  simp only [exec, execDecFrame, withChannel_pos hc, dif_pos hlt, show (⟨frameIndex f, hlt⟩ : Fin 8) = k from Fin.ext hk]

theorem exec_encBlock {len : Nibble} (h1 : 1 ≤ len.toNat) (h2 : len.toNat ≤ 14) (b : Block) :
    exec (.encBlock ch len b) s = .next (encodeInto c len.toNat b s) := by
  simp only [exec, execEncBlock, withChannel_pos hc, withLength_pos h1 h2]

theorem exec_lpcStart {n : Word} (hn : n.toNat < 2 ^ 31) :
    exec (.lpcStart ch n) s = .next (s.setChan c ((s.chan c).lpcArm (n.setWidth 31))) := by
  simp only [exec, execLpcStart, withChannel_pos hc, if_pos hn]

theorem exec_lpcSample (ha : (s.chan c).lpcArmed = true) (hn : (s.chan c).lpcCnt < (s.chan c).lpcN) (x : I16) :
    exec (.lpcSample ch x) s = .next (s.setChan c ((s.chan c).lpcReceive x)) := by
  simp only [exec, execLpcSample, withChannel_pos hc, if_pos (And.intro ha hn)]

theorem exec_lpcSolve (ha : (s.chan c).lpcArmed = true) (hn : (s.chan c).lpcCnt = (s.chan c).lpcN) :
    exec (.lpcSolve ch) s = .next (s.setChan c (s.chan c).lpcFinish) := by
  simp only [exec, execLpcSolve, withChannel_pos hc, if_pos (And.intro ha hn)]

end OnChannel

/-! ## Every operation -/

/-- Every operation answers a next state: no operation ends a run. -/
theorem exec_next (i : Instr) (s : State) : ∃ t, exec i s = .next t := by
  cases hi : i.channel with
  | none => rcases exec_noChannel hi s with ⟨rfl, e⟩ | ⟨rfl, e⟩ | ⟨u, rfl, e⟩ | ⟨u, rfl, e⟩ <;> exact ⟨_, e⟩
  | some ch =>
    by_cases hc : ch.toNat < 2
    · obtain ⟨f, hf⟩ := exec_eq_applyEffect hi (c := ⟨ch.toNat, hc⟩) rfl
      exact ⟨_, hf s⟩
    · exact ⟨_, exec_badChannel hi (by omega) s⟩

/-- What no operation touches, and that responses are only appended (10_state.md R33). -/
theorem exec_keeps {i : Instr} {s t : State} (h : exec i s = .next t) :
    t.pktbuf = s.pktbuf ∧ t.pos = s.pos ∧ t.pending = s.pending ∧ t.taken = s.taken ∧ t.script = s.script ∧
      ∃ words, t.rspq = s.rspq ++ words := by
  cases hi : i.channel with
  | none =>
    rcases exec_noChannel hi s with ⟨rfl, e⟩ | ⟨rfl, e⟩ | ⟨u, rfl, e⟩ | ⟨u, rfl, e⟩ <;> rw [e] at h <;> cases h <;>
      simp [State.clearChannels]
  | some ch =>
    by_cases hc : ch.toNat < 2
    · obtain ⟨f, hf⟩ := exec_eq_applyEffect hi (c := ⟨ch.toNat, hc⟩) rfl
      rw [hf s] at h
      cases h
      unfold State.applyEffect
      split <;> simp
    · rw [exec_badChannel hi (by omega)] at h
      cases h
      simp

/-! ## Lists of operations -/

theorem execAll_cons {s t : State} {i : Instr} (hs : s.status.fault = false) (h : exec i s = .next t)
    (rest : List Instr) : execAll (i :: rest) s = execAll rest t := by
  simp [execAll, hs, h]

theorem channelField_toNat (c : Fin 2) : (channelField c).toNat = c.val := by revert c; decide

end Sys2Proof.Machine
end

