-- ==== Sys2Proof/Laws/Lpc.lean ====
section
/-! SUPPORT. Laws of the LPC solver: segments as index ranges, the sums of a list and of one more sample, the bounds of
the sums, and what received samples leave in a channel. -/

namespace Sys2Proof.Machine

/-! ## Segments -/

/-- `Seg(i, N) = k` says that `i` lies in the index range of segment `k` (R95). -/
theorem segment_bounds {i n k : Nat} (hi : i < n) : (8 * i + 7) / n = k ↔ k * n / 8 ≤ i ∧ i < (k + 1) * n / 8 := by
  have e : (k + 1) * n = k * n + n := by ring
  rw [e]
  have h1 := Nat.div_add_mod (8 * i + 7) n
  have h2 := Nat.mod_lt (8 * i + 7) (show 0 < n by omega)
  constructor
  · rintro rfl
    rw [Nat.mul_comm n] at h1
    omega
  · intro h
    apply Nat.div_eq_of_lt_le
    · omega
    · rw [e]
      omega

theorem segment_lt {i n : Nat} (hi : i < n) : (8 * i + 7) / n < 8 := by
  rw [Nat.div_lt_iff_lt_mul (by omega)]
  omega

theorem segmentOf_val {i n : Nat} (hi : i < n) : (segmentOf i n).val = (8 * i + 7) / n := by
  rw [segmentOf, Fin.val_ofNat, Nat.mod_eq_of_lt (segment_lt hi)]

theorem segmentOf_eq_iff {i n : Nat} (hi : i < n) (k : Fin 8) :
    segmentOf i n = k ↔ k.val * n / 8 ≤ i ∧ i < (k.val + 1) * n / 8 := by
  rw [Fin.ext_iff, segmentOf_val hi]
  exact segment_bounds hi

theorem segmentSamples_eq (xs : List Int) (k : Fin 8) :
    segmentSamples xs k = (xs.take ((k.val + 1) * xs.length / 8)).drop (k.val * xs.length / 8) := by
  rw [segmentSamples, List.drop_take]

/-- Segments are contiguous: a segment follows all that is before it (R95). -/
theorem take_append_segmentSamples (xs : List Int) (k : Fin 8) :
    xs.take (k.val * xs.length / 8) ++ segmentSamples xs k = xs.take ((k.val + 1) * xs.length / 8) := by
  have e : (k.val + 1) * xs.length = k.val * xs.length + xs.length := by ring
  rw [segmentSamples_eq]
  conv_rhs =>
    rw [← List.take_append_drop (k.val * xs.length / 8) (xs.take ((k.val + 1) * xs.length / 8)), List.take_take]
  rw [Nat.min_eq_left (by omega)]

/-- The samples of segment `k` among the first `m` samples. -/
def receivedPart (xs : List Int) (k : Fin 8) (m : Nat) : List Int :=
  (xs.take (min m ((k.val + 1) * xs.length / 8))).drop (k.val * xs.length / 8)

theorem receivedPart_zero (xs : List Int) (k : Fin 8) : receivedPart xs k 0 = [] := by simp [receivedPart]

theorem receivedPart_all (xs : List Int) (k : Fin 8) : receivedPart xs k xs.length = segmentSamples xs k := by
  have := Nat.mul_le_mul_right xs.length (show k.val + 1 ≤ 8 by omega)
  rw [receivedPart, segmentSamples_eq, Nat.min_eq_right (by omega)]

/-- One more sample joins the part of its own segment and no other. -/
theorem receivedPart_succ {xs : List Int} {m : Nat} (hm : m < xs.length) (k : Fin 8) :
    receivedPart xs k (m + 1) =
      if k = segmentOf m xs.length then receivedPart xs k m ++ [xs[m]] else receivedPart xs k m := by
  simp only [eq_comm (a := k), segmentOf_eq_iff hm, receivedPart]
  split
  · rw [Nat.min_eq_left (by omega), Nat.min_eq_left (by omega), List.take_add_one, List.getElem?_eq_getElem hm,
      Option.toList_some, List.drop_append_of_le_length (by rw [List.length_take]; omega)]
  · rcases Nat.lt_or_ge m ((k.val + 1) * xs.length / 8) with h1 | h1
    · rw [Nat.min_eq_left (by omega), Nat.min_eq_left (by omega),
        List.drop_eq_nil_of_le (by rw [List.length_take]; omega),
        List.drop_eq_nil_of_le (by rw [List.length_take]; omega)]
    · rw [Nat.min_eq_right (by omega), Nat.min_eq_right (by omega)]

/-- Before a segment's first sample arrives its part is empty. -/
theorem receivedPart_first {xs : List Int} {m : Nat} (hm : m < xs.length)
    (h : m = 0 ∨ segmentOf (m - 1) xs.length ≠ segmentOf m xs.length) :
    receivedPart xs (segmentOf m xs.length) m = [] := by
  have h1 := (segmentOf_eq_iff hm (segmentOf m xs.length)).mp rfl
  rcases h with rfl | h
  · exact receivedPart_zero _ _
  · rw [Ne, segmentOf_eq_iff (by omega)] at h
    rw [receivedPart]
    apply List.drop_eq_nil_of_le
    rw [List.length_take]
    omega

/-! ## Sums -/

theorem dot_nil (ys : List Int) : dot [] ys = 0 := rfl

theorem dot_cons (x y : Int) (xs ys : List Int) : dot (x :: xs) (y :: ys) = x * y + dot xs ys := rfl

theorem dot_self_snoc (x : Int) : ∀ ys : List Int, dot (ys ++ [x]) (ys ++ [x]) = dot ys ys + x * x
  | [] => by simp [dot_cons, dot_nil]
  | y :: ys => by
    simp only [List.cons_append, dot_cons, dot_self_snoc x ys]
    ring

theorem dot_drop_one_snoc (x : Int) : ∀ ys : List Int,
    dot ((ys ++ [x]).drop 1) (ys ++ [x]) = dot (ys.drop 1) ys + x * ys.getLastD 0
  | [] => by simp [dot_nil]
  | [y] => by simp [dot_cons, dot_nil]
  | y :: z :: zs => by
    have := dot_drop_one_snoc x (z :: zs)
    simp only [List.cons_append, List.drop_succ_cons, List.drop_zero, dot_cons, List.getLastD_cons] at this ⊢
    linarith

theorem dot_drop_two_snoc (x : Int) : ∀ ys : List Int,
    dot ((ys ++ [x]).drop 2) (ys ++ [x]) = dot (ys.drop 2) ys + x * ys.dropLast.getLastD 0
  | [] => by simp [dot_nil]
  | [y] => by simp [dot_nil]
  | [y, z] => by simp [dot_cons, dot_nil]
  | y :: z :: w :: ws => by
    have := dot_drop_two_snoc x (z :: w :: ws)
    simp only [List.cons_append, List.drop_succ_cons, List.drop_zero, dot_cons, List.getLastD_cons,
      List.dropLast_cons_cons] at this ⊢
    linarith

/-- The sums of a list with one more sample: three products with the sample and the two before it (R100). -/
theorem lagSums_snoc (ys : List Int) (x : Int) :
    lagSums (ys ++ [x]) = (lagSums ys).accumulate x (ys.getLastD 0) (ys.dropLast.getLastD 0) := by
  simp only [lagSums, LagSums.accumulate, dot_self_snoc, dot_drop_one_snoc, dot_drop_two_snoc]

theorem dot_self_nonneg : ∀ xs : List Int, 0 ≤ dot xs xs
  | [] => Int.le_refl 0
  | x :: xs => Int.add_nonneg (mul_self_nonneg x) (dot_self_nonneg xs)

/-- The lag-1 sum, with either sign `e`, against the energy; with equality only for zeros (R103). -/
theorem lag_one_bound {e : Int} (he : e * e = 1) : ∀ (xs : List Int) (x : Int),
    x * x ≤ 2 * dot (x :: xs) (x :: xs) + 2 * e * dot xs (x :: xs) ∧
    (2 * dot (x :: xs) (x :: xs) + 2 * e * dot xs (x :: xs) = x * x → ∀ y ∈ x :: xs, y = 0)
  | [], x => by
    simp only [dot_cons, dot_nil, List.mem_singleton, forall_eq]
    exact ⟨by nlinarith, fun h => by nlinarith⟩
  | y :: ys, x => by
    obtain ⟨h1, h2⟩ := lag_one_bound he ys y
    simp only [dot_cons x x, dot_cons y x] at *
    generalize dot (y :: ys) (y :: ys) = a at *
    generalize dot ys (y :: ys) = b at *
    have hsq : (x + e * y) * (x + e * y) = x * x + 2 * e * (y * x) + y * y := by linear_combination y * y * he
    have hn := mul_self_nonneg (x + e * y)
    refine ⟨by linarith, fun h => ?_⟩
    have hy := h2 (by linarith)
    have hy0 : y = 0 := hy y (by simp)
    have hx0 : x = 0 := by
      have := mul_self_eq_zero.mp (show (x + e * y) * (x + e * y) = 0 by linarith)
      simpa [hy0] using this
    intro z hz
    rcases List.mem_cons.mp hz with rfl | hz
    · exact hx0
    · exact hy z hz

/-- The lag-2 sum, with either sign `e`, against the energy (R103). -/
theorem lag_two_bound {e : Int} (he : e * e = 1) : ∀ (xs : List Int) (x y : Int),
    x * x + y * y ≤ 2 * dot (x :: y :: xs) (x :: y :: xs) + 2 * e * dot xs (x :: y :: xs)
  | [], x, y => by
    simp only [dot_cons, dot_nil]
    nlinarith [mul_self_nonneg x, mul_self_nonneg y]
  | z :: zs, x, y => by
    have h := lag_two_bound he zs y z
    simp only [dot_cons x x, dot_cons z x] at *
    generalize dot (y :: z :: zs) (y :: z :: zs) = a at *
    generalize dot zs (y :: z :: zs) = b at *
    have hsq : (x + e * z) * (x + e * z) = x * x + 2 * e * (z * x) + z * z := by linear_combination z * z * he
    have hn := mul_self_nonneg (x + e * z)
    linarith

/-- The product of two patterns is at most 2^30 in magnitude (R104). -/
theorem mul_toInt_mem (a b : I16) : -(2 ^ 30) ≤ a.toInt * b.toInt ∧ a.toInt * b.toInt ≤ 2 ^ 30 := by
  obtain ⟨ha1, ha2⟩ := toInt_mem a
  obtain ⟨hb1, hb2⟩ := toInt_mem b
  constructor <;> nlinarith [mul_nonneg (sub_nonneg.mpr ha1) (sub_nonneg.mpr hb1),
    mul_nonneg (sub_nonneg.mpr ha1) (sub_nonneg.mpr hb2), mul_nonneg (sub_nonneg.mpr ha2) (sub_nonneg.mpr hb1),
    mul_nonneg (sub_nonneg.mpr ha2) (sub_nonneg.mpr hb2)]

/-! ## One received sample -/

theorem lpcFirst_iff (ch : Channel) :
    ch.lpcFirst = true ↔ ch.lpcCnt.toNat = 0 ∨ segmentOf (ch.lpcCnt.toNat - 1) ch.lpcN.toNat ≠ ch.lpcSegment := by
  simp [Channel.lpcFirst]

/-- The sums after one more sample (R100). -/
theorem lpcReceive_lpcR (ch : Channel) (x : I16) (k : Fin 8) :
    (ch.lpcReceive x).lpcR[k.val] =
      if k = ch.lpcSegment then
        (ch.lpcR[k.val]).accumulate x.toInt ch.lpcWindow.1.toInt ch.lpcWindow.2.toInt
      else ch.lpcR[k.val] := by
  simp only [Channel.lpcReceive, Vector.getElem_set, ← Fin.ext_iff]
  by_cases h : ch.lpcSegment = k
  · subst h
    simp
  · rw [if_neg h, if_neg (fun e => h e.symm)]

/-- The count does not wrap while a sample is expected (R100). -/
theorem lpcReceive_count {ch : Channel} (h : ch.lpcCnt < ch.lpcN) (x : I16) :
    (ch.lpcReceive x).lpcCnt.toNat = ch.lpcCnt.toNat + 1 := by
  have h' : ch.lpcCnt.toNat < ch.lpcN.toNat := h
  have := ch.lpcN.isLt
  rw [lpcReceive_lpcCnt, BitVec.toNat_add]
  simp only [BitVec.toNat_ofNat]
  omega

/-- What a channel holds after the first `m` of the samples `xs`: the count, the sums of the parts received, and the
window inside the segment of the last one. -/
def Channel.Received (ch : Channel) (xs : List Int) (m : Nat) : Prop :=
  ch.lpcArmed = true ∧ ch.lpcN.toNat = xs.length ∧ ch.lpcCnt.toNat = m ∧
  (∀ k : Fin 8, ch.lpcR[k.val] = lagSums (receivedPart xs k m)) ∧
  (m ≠ 0 → ch.lpcP1.toInt = (receivedPart xs (segmentOf (m - 1) xs.length) m).getLastD 0 ∧
    ch.lpcP2.toInt = (receivedPart xs (segmentOf (m - 1) xs.length) m).dropLast.getLastD 0)

/-- The window of the next sample is the end of its segment's part (R100). -/
theorem lpcWindow_eq {ch : Channel} {xs : List Int} {m : Nat} (h : ch.Received xs m) (hm : m < xs.length) :
    ch.lpcWindow.1.toInt = (receivedPart xs (segmentOf m xs.length) m).getLastD 0 ∧
      ch.lpcWindow.2.toInt = (receivedPart xs (segmentOf m xs.length) m).dropLast.getLastD 0 := by
  obtain ⟨-, hn, hc, -, hp⟩ := h
  have hs : ch.lpcSegment = segmentOf m xs.length := by rw [Channel.lpcSegment, hn, hc]
  unfold Channel.lpcWindow
  by_cases hf : ch.lpcFirst = true
  · rw [if_pos hf]
    rw [lpcFirst_iff, hs, hn, hc] at hf
    rw [receivedPart_first hm hf]
    exact ⟨rfl, rfl⟩
  · rw [if_neg hf]
    rw [lpcFirst_iff, hs, hn, hc] at hf
    simp only [not_or, not_not] at hf
    have := hp hf.1
    rwa [hf.2] at this

/-- One more sample (R100). -/
theorem Received_succ {ch : Channel} {xs : List Int} {m : Nat} (h : ch.Received xs m) (hm : m < xs.length) {x : I16}
    (hx : x.toInt = xs[m]) : (ch.lpcReceive x).Received xs (m + 1) := by
  obtain ⟨w1, w2⟩ := lpcWindow_eq h hm
  obtain ⟨ha, hn, hc, hr, -⟩ := h
  have hs : ch.lpcSegment = segmentOf m xs.length := by rw [Channel.lpcSegment, hn, hc]
  have hlt : ch.lpcCnt < ch.lpcN := by
    show ch.lpcCnt.toNat < ch.lpcN.toNat
    omega
  refine ⟨ha, hn, by rw [lpcReceive_count hlt, hc], fun k => ?_, fun _ => ?_⟩
  · rw [lpcReceive_lpcR, receivedPart_succ hm, hs]
    split
    · next hk => rw [lagSums_snoc, hr, hk, w1, w2, hx]
    · exact hr k
  · rw [Nat.add_sub_cancel, receivedPart_succ hm, if_pos rfl, lpcReceive_lpcP1, lpcReceive_lpcP2, w1, hx]
    simp

/-- A channel just armed has received nothing (R99). -/
theorem Received_zero (ch : Channel) {xs : List Int} {n : U31} (hn : n.toNat = xs.length) :
    (ch.lpcArm n).Received xs 0 := by
  refine ⟨rfl, hn, rfl, fun k => ?_, fun h => absurd rfl h⟩
  rw [receivedPart_zero]
  simp [Channel.lpcArm, LagSums.zero, lagSums, dot_nil]

end Sys2Proof.Machine
end

