-- ==== Sys2Proof/Laws/PerInstr.lean ====
section
/-! SUPPORT. Statements about every instruction, one lemma per constructor. Family `CommandWord`: the command word of
an instruction carries its operation's code, has no must-be-zero bit set, and gives back the operands. -/

namespace Sys2Proof.Laws.CommandWord

/-- The command word selects the instruction's row, passes its must-be-zero test, and its operands with the
instruction's own payload are the instruction (30_encoding.md R64 to R67). -/
def Statement (i : Instr) : Prop :=
  opcField i.command = i.op.code ∧ i.command &&& i.op.mbz = 0#32 ∧ i.op.operands i.command i.payload = i

theorem and_mbz (op : Op) (idx ch : Nibble) (imm : I16)
    (h : idx &&& idxField op.mbz = 0 ∧ ch &&& chField op.mbz = 0 ∧ imm &&& immField op.mbz = 0) :
    commandWord op.code idx ch imm &&& op.mbz = 0#32 := by
  rw [mbz_fields op, commandWord_and_eq_zero]
  simpa using h

theorem nop : Statement .nop := ⟨by decide, by decide, rfl⟩

theorem softReset : Statement .softReset := ⟨by decide, by decide, rfl⟩

theorem nibDec (u : Nibble) : Statement (.nibDec u) :=
  ⟨opcField_commandWord _ _ _ _, by revert u; decide,
    by simp only [Op.operands, Instr.op, Instr.command, immField_commandWord]; congr 1; revert u; decide⟩

theorem nibEnc (b : Byte) : Statement (.nibEnc b) :=
  ⟨opcField_commandWord _ _ _ _, by revert b; decide +kernel,
    by simp only [Op.operands, Instr.op, Instr.command, immField_commandWord]; congr 1; revert b; decide +kernel⟩

theorem coefWr (ch idx : Nibble) (v : I16) : Statement (.coefWr ch idx v) :=
  ⟨opcField_commandWord _ _ _ _,
    and_mbz .coefWr idx ch v ⟨by revert idx; decide, by revert ch; decide,
      by rw [show immField (Op.mbz .coefWr) = 0 by decide]; exact BitVec.and_zero⟩,
    by simp [Op.operands, Instr.op, Instr.command]⟩

theorem coefRd (ch idx : Nibble) : Statement (.coefRd ch idx) :=
  ⟨opcField_commandWord _ _ _ _,
    and_mbz .coefRd idx ch 0 ⟨by revert idx; decide, by revert ch; decide, by decide⟩,
    by simp [Op.operands, Instr.op, Instr.command]⟩

theorem histWr (ch idx : Nibble) (v : I16) : Statement (.histWr ch idx v) :=
  ⟨opcField_commandWord _ _ _ _,
    and_mbz .histWr idx ch v ⟨by revert idx; decide, by revert ch; decide,
      by rw [show immField (Op.mbz .histWr) = 0 by decide]; exact BitVec.and_zero⟩,
    by simp [Op.operands, Instr.op, Instr.command]⟩

theorem histRd (ch idx : Nibble) : Statement (.histRd ch idx) :=
  ⟨opcField_commandWord _ _ _ _,
    and_mbz .histRd idx ch 0 ⟨by revert idx; decide, by revert ch; decide, by decide⟩,
    by simp [Op.operands, Instr.op, Instr.command]⟩

theorem passStart (ch : Nibble) : Statement (.passStart ch) :=
  ⟨opcField_commandWord _ _ _ _, and_mbz .passStart 0 ch 0 ⟨by decide, by revert ch; decide, by decide⟩,
    by simp [Op.operands, Instr.op, Instr.command]⟩

theorem decFrame (ch : Nibble) (frame : Frame) : Statement (.decFrame ch frame) :=
  ⟨opcField_commandWord _ _ _ _, and_mbz .decFrame 0 ch 0 ⟨by decide, by revert ch; decide, by decide⟩,
    by simp [Op.operands, Instr.op, Instr.command, Instr.payload, frameOf_frameWords]⟩

theorem encBlock (ch len : Nibble) (samples : Block) : Statement (.encBlock ch len samples) :=
  ⟨opcField_commandWord _ _ _ _,
    and_mbz .encBlock len ch 0 ⟨by revert len; decide, by revert ch; decide, by decide⟩,
    by simp [Op.operands, Instr.op, Instr.command, Instr.payload, blockOf_blockWords]⟩

theorem lpcStart (ch : Nibble) (n : Word) : Statement (.lpcStart ch n) :=
  ⟨opcField_commandWord _ _ _ _, and_mbz .lpcStart 0 ch 0 ⟨by decide, by revert ch; decide, by decide⟩,
    by simp [Op.operands, Instr.op, Instr.command, Instr.payload, payloadAt]⟩

theorem lpcSample (ch : Nibble) (x : I16) : Statement (.lpcSample ch x) :=
  ⟨opcField_commandWord _ _ _ _,
    and_mbz .lpcSample 0 ch x ⟨by decide, by revert ch; decide,
      by rw [show immField (Op.mbz .lpcSample) = 0 by decide]; exact BitVec.and_zero⟩,
    by simp [Op.operands, Instr.op, Instr.command]⟩

theorem lpcSolve (ch : Nibble) : Statement (.lpcSolve ch) :=
  ⟨opcField_commandWord _ _ _ _, and_mbz .lpcSolve 0 ch 0 ⟨by decide, by revert ch; decide, by decide⟩,
    by simp [Op.operands, Instr.op, Instr.command]⟩

end Sys2Proof.Laws.CommandWord
end

