-- ==== Sys2Proof/Laws/Step.lean ====
section
/-! SUPPORT. What one step can do, said once: what `fetch` answers in each case, the step on each schedule, and the
inversion lemma of the step. -/

namespace Sys2Proof.Machine

/-! ## Fetching -/

theorem fetch_faulted {s : State} (h : s.status.fault = true) : fetch s = .idle := by simp [fetch, h]

theorem fetch_packet {s : State} {packet rest : List Word} (h : s.status.fault = false)
    (hp : splitPacket (s.pktbuf ++ s.pending) = some (packet, rest)) :
    fetch s = .packet (decodeWords packet) (s.consume packet rest) := by
  simp [fetch, h, hp]

theorem fetch_partly {s : State} (h : s.status.fault = false) (hp : splitPacket (s.pktbuf ++ s.pending) = none)
    (hw : s.pending ≠ []) : fetch s = .partly { s with pktbuf := s.pktbuf ++ s.pending, pending := [] } := by
  simp [fetch, h, hp, hw]

theorem fetch_waiting {s : State} (h : s.status.fault = false) (hp : splitPacket (s.pktbuf ++ s.pending) = none)
    (hw : s.pending = []) : fetch s = .idle := by
  unfold fetch
  rw [h, hp]
  simp [hw]

/-! ## The block's turn -/

/-- The block's turn on a complete packet: execute it, or fault if the decoder rejects it (R44, R195). -/
theorem blockTurn_packet {s : State} {packet rest : List Word} (h : s.status.fault = false)
    (hp : splitPacket (s.pktbuf ++ s.pending) = some (packet, rest)) (waiting : Result) :
    blockTurn s waiting =
      match decodeWords packet with
      | .instr i => exec i (s.consume packet rest)
      | .reject r => raiseFault (rejectCause r) (s.consume packet rest) := by
  unfold blockTurn
  rw [fetch_packet h hp]
  cases decodeWords packet <;> rfl

theorem blockTurn_partly {s : State} (h : s.status.fault = false) (hp : splitPacket (s.pktbuf ++ s.pending) = none)
    (hw : s.pending ≠ []) (waiting : Result) :
    blockTurn s waiting = .next { s with pktbuf := s.pktbuf ++ s.pending, pending := [] } := by
  unfold blockTurn
  rw [fetch_partly h hp hw]

theorem blockTurn_faulted {s : State} (h : s.status.fault = true) (waiting : Result) : blockTurn s waiting = waiting := by
  unfold blockTurn
  rw [fetch_faulted h]

theorem blockTurn_waiting {s : State} (h : s.status.fault = false)
    (hp : splitPacket (s.pktbuf ++ s.pending) = none) (hw : s.pending = []) (waiting : Result) :
    blockTurn s waiting = waiting := by
  unfold blockTurn
  rw [fetch_waiting h hp hw]

/-- All that the block's turn can be. -/
theorem blockTurn_cases (s : State) (waiting : Result) :
    (s.status.fault = false ∧ ∃ packet rest, splitPacket (s.pktbuf ++ s.pending) = some (packet, rest) ∧
      ((∃ i, decodeWords packet = .instr i ∧ blockTurn s waiting = exec i (s.consume packet rest)) ∨
       ∃ r, decodeWords packet = .reject r ∧
         blockTurn s waiting = .next ((s.consume packet rest).takeFault (rejectCause r)))) ∨
    (s.status.fault = false ∧ splitPacket (s.pktbuf ++ s.pending) = none ∧ s.pending ≠ [] ∧
      blockTurn s waiting = .next { s with pktbuf := s.pktbuf ++ s.pending, pending := [] }) ∨
    ((s.status.fault = true ∨
        (s.status.fault = false ∧ splitPacket (s.pktbuf ++ s.pending) = none ∧ s.pending = [])) ∧
      blockTurn s waiting = waiting) := by
  cases hf : s.status.fault with
  | true => exact .inr (.inr ⟨.inl rfl, blockTurn_faulted hf waiting⟩)
  | false =>
    cases hp : splitPacket (s.pktbuf ++ s.pending) with
    | some pr =>
      obtain ⟨packet, rest⟩ := pr
      have e := blockTurn_packet hf hp waiting
      refine .inl ⟨rfl, packet, rest, rfl, ?_⟩
      cases hd : decodeWords packet with
      | instr i => rw [hd] at e; exact .inl ⟨i, rfl, e⟩
      | reject r => rw [hd] at e; exact .inr ⟨r, rfl, e⟩
    | none =>
      by_cases hw : s.pending = []
      · exact .inr (.inr ⟨.inr ⟨rfl, rfl, hw⟩, blockTurn_waiting hf hp hw waiting⟩)
      · exact .inr (.inl ⟨rfl, rfl, hw, blockTurn_partly hf hp hw waiting⟩)

/-! ## The step -/

theorem step_nil {s : State} (h : s.script = []) : step s = blockTurn s (.fault (endOfRun s)) := by simp [step, h]

theorem step_block {s : State} {turns : List Turn} (h : s.script = .block :: turns) :
    step s = blockTurn { s with script := turns } (.next { s with script := turns }) := by simp [step, h]

theorem step_host {s : State} {t : Turn} {turns : List Turn} (h : s.script = t :: turns) (ht : t ≠ .block) :
    step s = .next (hostMove t { s with script := turns }) := by
  cases t <;> simp_all [step]

/-- A step at the block's turn is that turn on the state with the turn taken off the schedule; what it answers when no
word can be transferred depends on the schedule. -/
theorem step_blocksTurn {s : State} {turns : List Turn} (h : s.BlocksTurn turns) :
    ∃ waiting, step s = blockTurn { s with script := turns } waiting := by
  rcases h with ⟨hs, rfl⟩ | hs
  · refine ⟨.fault (endOfRun s), ?_⟩
    rw [step_nil hs]
    congr 1
    rw [← hs]
  · exact ⟨_, step_block hs⟩

/-- The step on the next packet. -/
theorem step_nextPacket {s : State} {packet rest : List Word} {turns : List Turn} (h : s.NextPacket packet rest turns) :
    step s =
      match decodeWords packet with
      | .instr i => exec i ({ s with script := turns }.consume packet rest)
      | .reject r => raiseFault (rejectCause r) ({ s with script := turns }.consume packet rest) := by
  obtain ⟨waiting, e⟩ := step_blocksTurn h.2.1
  rw [e, blockTurn_packet (s := { s with script := turns }) h.1 h.2.2]

/-- The step on an incomplete packet with words still on the stream (R45). -/
theorem step_partly {s : State} {turns : List Turn} (ht : s.BlocksTurn turns) (h : s.status.fault = false)
    (hp : splitPacket (s.pktbuf ++ s.pending) = none) (hw : s.pending ≠ []) :
    step s = .next { s with pktbuf := s.pktbuf ++ s.pending, pending := [], script := turns } := by
  obtain ⟨waiting, e⟩ := step_blocksTurn ht
  rw [e, blockTurn_partly (s := { s with script := turns }) h hp hw]

/-- A scheduled turn at which no word can be transferred passes without an effect (log entry 13). -/
theorem step_block_idle {s : State} {turns : List Turn} (hs : s.script = .block :: turns)
    (h : s.status.fault = true ∨
      (s.status.fault = false ∧ splitPacket (s.pktbuf ++ s.pending) = none ∧ s.pending = [])) :
    step s = .next { s with script := turns } := by
  rw [step_block hs]
  rcases h with h | ⟨h, hp, hw⟩
  · exact blockTurn_faulted (s := { s with script := turns }) h _
  · exact blockTurn_waiting (s := { s with script := turns }) h hp hw _

/-- Every step that answers a next state is one of these: an operation on the state with its packet consumed, a
rejected packet's fault entry, a transfer into the packet buffer, an idle turn, or a move of the host. `turns` is the
schedule that remains. -/
theorem step_next_cases {s t : State} (h : step s = .next t) :
    ∃ turns : List Turn,
      (s.status.fault = false ∧ ∃ packet rest i, splitPacket (s.pktbuf ++ s.pending) = some (packet, rest) ∧
        decodeWords packet = .instr i ∧ exec i ({ s with script := turns }.consume packet rest) = .next t) ∨
      (s.status.fault = false ∧ ∃ packet rest r, splitPacket (s.pktbuf ++ s.pending) = some (packet, rest) ∧
        t = ({ s with script := turns }.consume packet rest).takeFault (rejectCause r)) ∨
      (s.status.fault = false ∧ splitPacket (s.pktbuf ++ s.pending) = none ∧
        t = { s with pktbuf := s.pktbuf ++ s.pending, pending := [], script := turns }) ∨
      t = { s with script := turns } ∨
      ∃ m, m ≠ .block ∧ s.script = m :: turns ∧ t = hostMove m { s with script := turns } := by
  cases hs : s.script with
  | nil =>
    refine ⟨[], ?_⟩
    have es : { s with script := [] } = s := by rw [← hs]
    rw [step_nil hs] at h
    rw [es]
    rcases blockTurn_cases s (.fault (endOfRun s)) with ⟨hf, p, r, hp, ⟨i, hd, e⟩ | ⟨j, hd, e⟩⟩ | ⟨hf, hp, hw, e⟩ | ⟨-, e⟩
    · exact .inl ⟨hf, p, r, i, hp, hd, by rw [← e, h]⟩
    · rw [e] at h
      cases h
      exact .inr (.inl ⟨hf, p, r, j, hp, rfl⟩)
    · rw [e] at h
      cases h
      refine .inr (.inr (.inl ⟨hf, hp, ?_⟩))
      rw [← hs]
    · rw [e] at h
      cases h
  | cons m turns =>
    refine ⟨turns, ?_⟩
    by_cases hm : m = .block
    · subst hm
      rw [step_block hs] at h
      rcases blockTurn_cases { s with script := turns } (.next { s with script := turns }) with
        ⟨hf, p, r, hp, ⟨i, hd, e⟩ | ⟨j, hd, e⟩⟩ | ⟨hf, hp, hw, e⟩ | ⟨-, e⟩
      · exact .inl ⟨hf, p, r, i, hp, hd, by rw [← e, h]⟩
      · rw [e] at h
        cases h
        exact .inr (.inl ⟨hf, p, r, j, hp, rfl⟩)
      · rw [e] at h
        cases h
        exact .inr (.inr (.inl ⟨hf, hp, rfl⟩))
      · rw [e] at h
        cases h
        exact .inr (.inr (.inr (.inl rfl)))
    · rw [step_host hs hm] at h
      cases h
      exact .inr (.inr (.inr (.inr ⟨m, hm, rfl, rfl⟩)))

/-! ## Ports -/

theorem rstN_reset {s : State} {turns : List Turn} (h : s.script = .reset :: turns) : s.rstN = false := by
  simp [State.rstN, h]

theorem rstN_blocksTurn {s : State} {turns : List Turn} (h : s.BlocksTurn turns) : s.rstN = true := by
  rcases h with ⟨h, -⟩ | h <;> simp [State.rstN, h]

/-- While `rst_n = 0` neither port is ready or valid (R210). -/
theorem ports_reset {s : State} {turns : List Turn} (h : s.script = .reset :: turns) :
    s.cmdReady = false ∧ s.rspValid = false ∧ s.rspData = none := by
  simp [State.cmdReady, State.rspValid, State.rspData, rstN_reset h]

/-- At the block's turn `cmd_valid` says whether a word is pending, and no response is taken (log entry 15). -/
theorem ports_blocksTurn {s : State} {turns : List Turn} (h : s.BlocksTurn turns) :
    s.cmdValid = !s.pending.isEmpty ∧ s.rspReady = false := by
  rcases h with ⟨h, -⟩ | h <;> simp [State.cmdValid, State.rspReady, h]

/-- At a move of the host no command word is valid (log entry 15). -/
theorem cmdValid_host {s : State} {m : Turn} {turns : List Turn} (h : s.script = m :: turns) (hm : m ≠ .block) :
    s.cmdValid = false := by
  simp [State.cmdValid, h, hm]

/-! ## Runs -/

/-- A run goes on from the state its first step gives. -/
theorem core_run_next {n : Nat} {s t : State} (h : step s = .next t) :
    Host.Core.run core (n + 1) s = Host.Core.run core n t := by
  simp only [Host.Core.run, show core.step s = .next t from h]

/-- A run stops with its first step's fault. -/
theorem core_run_fault {n : Nat} {s : State} {f : Fault} (h : step s = .fault f) :
    Host.Core.run core (n + 1) s = .fault f := by
  simp only [Host.Core.run, show core.step s = .fault f from h]

/-- A run stops with its first step's refusal. -/
theorem core_run_refused {n : Nat} {s : State} {r : Refusal} (h : step s = .refused r) :
    Host.Core.run core (n + 1) s = .refused r := by
  simp only [Host.Core.run, show core.step s = .refused r from h]

end Sys2Proof.Machine
end

