-- ==== Sys2Proof/Tests/Slice0.lean ====
section
/-! SUPPORT. The model's own tests: ill-formed terms refused, words written out from the spec's encodings decoded, one
step or one operation with the values of 95_test_vectors.md, and a witness for the hypotheses of every statement. -/

namespace Sys2Proof.Tests

open Sys2Proof Sys2Proof.Machine

/-! ## Helpers -/

/-- The next state of an answer. -/
def after : Result → Option State
  | .next t => some t
  | .fault _ => none
  | .refused _ => none

/-- The state after reset with these words on the command stream. -/
def streaming (words : List Word) : State := { State.reset with pending := words }

/-- The state after reset with this schedule. -/
def scheduled (turns : List Turn) : State := { State.reset with script := turns }

/-- The same with the block's turn at the head of the schedule and a move of the host behind it. -/
def streamingScheduled (words : List Word) : State := { streaming words with script := [.block, .takeRsp] }

/-- The state after reset with both channels' context replaced. -/
def holding (ch : Channel) : State := { State.reset with chans := Vector.replicate 2 ch }

/-- The state after reset, faulted. -/
def faultedState : State := { State.reset with status := { fault := true, cause := 5 } }

/-- A channel whose pair 1 is `(2048, 0)`, the rest zero (T-DEC-4). -/
def integrator : Channel := { Channel.reset with coef := Channel.reset.coef.set 2 2048#16 }

/-- A channel armed for `n` samples of which it has `cnt`. -/
def armed (n cnt : Nat) : Channel :=
  { Channel.reset with lpcArmed := true, lpcN := BitVec.ofNat 31 n, lpcCnt := BitVec.ofNat 31 cnt }

/-- The frame of T-DEC-1. -/
def ramp : Frame := #v[0x00, 0x12, 0x34, 0x56, 0x78, 0x9A, 0xBC, 0xDE]

/-- The targets of T-ENC-2. -/
def rampBlock : Block := #v[1, 2, 3, 4, 5, 6, 7, -8, -7, -6, -5, -4, -3, -2]

/-- `STATUS` with the fault of this cause code. -/
def cause (c : BitVec 4) : Status := { fault := true, cause := c }

/-! ## Well-formedness: one ill-formed term for each check (R67, R154, R140, R61, R99) -/

theorem test_wf_channel : (Instr.coefWr 2 0 0).wellFormed = false ∧ (Instr.coefWr 1 15 0).wellFormed = true := by decide

theorem test_wf_cell : (Instr.histRd 0 2).wellFormed = false ∧ (Instr.histRd 0 1).wellFormed = true := by decide

theorem test_wf_length : (Instr.encBlock 0 0 rampBlock).wellFormed = false ∧
    (Instr.encBlock 0 15 rampBlock).wellFormed = false ∧ (Instr.encBlock 0 14 rampBlock).wellFormed = true := by decide

theorem test_wf_frame : (Instr.decFrame 0 (ramp.set 0 0x80)).wellFormed = false ∧
    (Instr.decFrame 0 (ramp.set 0 0x7F)).wellFormed = true := by decide

theorem test_wf_count : (Instr.lpcStart 0 0x80000000).wellFormed = false ∧
    (Instr.lpcStart 0 0x7FFFFFFF).wellFormed = true := by decide

/-! ## Decoding: words of the spec for every constructor -/

/-- R150. -/
theorem test_decode_nop : decodeWords [0x00000000] = .instr .nop := by decide
/-- R151. -/
theorem test_decode_softReset : decodeWords [0x01000000] = .instr .softReset := by decide
/-- R84. -/
theorem test_decode_nibDec : decodeWords [0x1000000F] = .instr (.nibDec 15) := by decide
/-- R85. -/
theorem test_decode_nibEnc : decodeWords [0x110000F8] = .instr (.nibEnc (-8)) := by decide
/-- R152. -/
theorem test_decode_coefWr : decodeWords [0x20200800] = .instr (.coefWr 0 2 2048) ∧
    decodeWords [0x20117FFF] = .instr (.coefWr 1 1 32767) := by decide
/-- T-CTL-1. -/
theorem test_decode_coefRd : decodeWords [0x21A10000] = .instr (.coefRd 1 10) := by decide
/-- R154. -/
theorem test_decode_histWr : decodeWords [0x22017FFF] = .instr (.histWr 1 0 32767) ∧
    decodeWords [0x22117FFF] = .instr (.histWr 1 1 32767) := by decide
/-- T-CTL-2. -/
theorem test_decode_histRd : decodeWords [0x23100000] = .instr (.histRd 0 1) := by decide
/-- R118. -/
theorem test_decode_passStart : decodeWords [0x30010000] = .instr (.passStart 1) := by decide
/-- R119. -/
theorem test_decode_decFrame : decodeWords [0x31000000, 0xFF111110, 0x008070FF] =
    .instr (.decFrame 0 #v[0x10, 0x11, 0x11, 0xFF, 0xFF, 0x70, 0x80, 0x00]) := by decide
/-- R140. -/
theorem test_decode_encBlock : decodeWords [0x41E00000, 0x00020001, 0x00040003, 0x00060005, 0xFFF80007, 0xFFFAFFF9,
    0xFFFCFFFB, 0xFFFEFFFD] = .instr (.encBlock 0 14 rampBlock) := by decide
/-- R99. -/
theorem test_decode_lpcStart : decodeWords [0x50010000, 0x0000000E] = .instr (.lpcStart 1 14) := by decide
/-- R100. -/
theorem test_decode_lpcSample : decodeWords [0x5100FFFE] = .instr (.lpcSample 0 (-2)) := by decide
/-- R101, P5. -/
theorem test_decode_lpcSolve : decodeWords [0x52010000] = .instr (.lpcSolve 1) := by decide

/-- T-FLT-1, T-FLT-2, T-NIB-4, T-FLT-12. -/
theorem test_decode_rejects : decodeWords [0x02000000] = .reject .illegalOpcode ∧
    decodeWords [0x00000001] = .reject .reservedField ∧ decodeWords [0x10000010] = .reject .reservedField ∧
    decodeWords [0x31350007, 0x80, 0] = .reject .reservedField := by decide

/-- R67: the masks of the opcode table, as its rows have them. -/
theorem test_mbz_masks : Op.all.map (fun o => (o.code, o.mbz, o.payloadWords, o.responseWords)) =
    [(0x00, 0x00FFFFFF, 0, 0), (0x01, 0x00FFFFFF, 0, 0), (0x10, 0x00FFFFF0, 0, 1), (0x11, 0x00FFFF00, 0, 1),
     (0x20, 0x00000000, 0, 0), (0x21, 0x0000FFFF, 0, 1), (0x22, 0x00000000, 0, 0), (0x23, 0x0000FFFF, 0, 1),
     (0x30, 0x00F0FFFF, 0, 0), (0x31, 0x00F0FFFF, 2, 7), (0x41, 0x0000FFFF, 7, 2), (0x50, 0x00F0FFFF, 1, 0),
     (0x51, 0x00F00000, 0, 0), (0x52, 0x00F0FFFF, 0, 0)] := by decide

/-! ## The host's interface: numbered words and the step that runs them -/

/-- R119's words as one number, the first word in the low bits; and the row's 32 bits alone, the payload zero. -/
theorem test_table_word_decFrame :
    decodeTableWord 96 0x008070FF_FF111110_31000000 =
      some (.decFrame 0 #v[0x10, 0x11, 0x11, 0xFF, 0xFF, 0x70, 0x80, 0x00]) ∧
    decodeTableWord 32 0x31010000 = some (.decFrame 1 (Vector.replicate 8 0)) := by decide

theorem test_table_word_rejected : decodeTableWord 32 0x00000001 = none := by decide

/-- The very next step runs the placed instruction (T-NIB-4). -/
theorem test_fetch_word_runs : (after (step (State.reset.withFetchWord 32 0x1000000F))).map
    (fun t => (t.rspq, t.pos, t.pending, t.pktbuf, t.script)) = some ([0xFF], 1, [], [], []) := by decide +kernel

/-! ## One operation each -/

/-- T-CTL-4. -/
theorem test_nop : after (step (streaming [0])) = some { State.reset with pos := 1 } := by decide +kernel

/-- T-CTL-3: queued responses stay. -/
theorem test_softReset : after (exec .softReset { holding integrator with rspq := [5] }) =
    some { State.reset with rspq := [5] } := by decide +kernel

/-- T-NIB-4. -/
theorem test_nibDec : (after (step (streaming [0x10000008]))).map (·.rspq) = some [0xF8] := by decide +kernel

/-- T-NIB-4: out of the codec's range, the low four bits. -/
theorem test_nibEnc : (after (step (streaming [0x1100007F]))).map (·.rspq) = some [0x0F] := by decide +kernel

/-- T-CTL-1: element 10 of channel 1, channel 0 untouched. -/
theorem test_coefWr : (after (step (streaming [0x20A1FFFF]))).map (fun t => ((t.chan 1).coef[10], (t.chan 0).coef[10])) =
    some (-1, 0) := by decide +kernel

/-- R153: a negative coefficient is not sign-extended (-554 reads as 0xFDD6). -/
theorem test_coefRd : (after (exec (.coefRd 1 3) (holding { Channel.reset with coef := Channel.reset.coef.set 3 (-554) }))).map
    (·.rspq) = some [0xFDD6] := by decide +kernel

/-- R154: cell 1 is `HIST2`. -/
theorem test_histWr : (after (step (streaming [0x22117FFF]))).map
    (fun t => ((t.chan 1).hist1, (t.chan 1).hist2, (t.chan 0).hist2)) = some (0, 32767, 0) := by decide +kernel

/-- R155: -1 reads as 0xFFFF. -/
theorem test_histRd : (after (exec (.histRd 0 1) (holding { Channel.reset with hist1 := 7, hist2 := -1 }))).map (·.rspq) =
    some [0xFFFF] := by decide +kernel

/-- T-CTL-2. -/
theorem test_passStart : (after (exec (.passStart 0) (holding { Channel.reset with hist1 := 0x8000, hist2 := 0x7FFF }))).map
    (fun t => ((t.chan 0).hist1, (t.chan 0).hist2, (t.chan 1).hist1)) = some (0, 0, 0x8000) := by decide +kernel

/-- R119's example (T-DEC-4). -/
theorem test_decFrame : (after (exec (.decFrame 0 #v[0x10, 0x11, 0x11, 0xFF, 0xFF, 0x70, 0x80, 0x00]) (holding integrator))).map
    (fun t => (t.rspq, (t.chan 0).hist1, (t.chan 0).hist2)) =
    some ([0x00020001, 0x00040003, 0x00020003, 0x00000001, 0x00070007, 0xFFFFFFFF, 0xFFFFFFFF], -1, -1) := by decide +kernel

/-- T-DEC-5: the accumulator passes 32 bits, the sample saturates. -/
theorem test_decode_saturates : accumulate (-32768, -32768) (-32768) (-32768) 7 15 = 2617246720 ∧
    decodeSample (-32768, -32768) (-32768) (-32768) 7 15 = 32767 ∧ decodeSample (-1025, 0) 1 0 0 0 = -1 := by
  decide +kernel

/-- R140's example (T-ENC-2). -/
theorem test_encBlock : (after (exec (.encBlock 0 14 rampBlock) State.reset)).map
    (fun t => (t.rspq, (t.chan 0).hist1, (t.chan 0).hist2)) = some ([0x56341200, 0xDEBC9A78], -2, -3) := by decide +kernel

/-- T-ENC-5: the limits need exponent 13. -/
theorem test_encode_limits : encodeFrame (fun _ => (0, 0)) 0 0
      [32767, -32768, 32767, -32768, 32767, -32768, 32767, -32768, 32767, -32768, 32767, -32768, 32767, -32768] =
    #v[0x0D, 0x4C, 0x4C, 0x4C, 0x4C, 0x4C, 0x4C, 0x4C] := by decide +kernel

/-- R99's example. -/
theorem test_lpcStart : (after (step (streaming [0x50010000, 0x0000000E]))).map
    (fun t => ((t.chan 1).lpcArmed, (t.chan 1).lpcN, (t.chan 0).lpcArmed, t.pos)) = some (true, 14, false, 2) := by
  decide +kernel

/-- T-LPC-8: the second sample starts segment 7, and its window. -/
theorem test_lpcSample : (after (exec (.lpcSample 0 (-2)) (holding { armed 2 1 with lpcP1 := 3 }))).map
    (fun t => ((t.chan 0).lpcR[7], (t.chan 0).lpcP1, (t.chan 0).lpcP2, (t.chan 0).lpcCnt)) =
    some ({ r0 := 4, r1 := 0, r2 := 0 }, -2, 0, 2) := by decide +kernel

/-- T-LPC-4, segment 1: the window inside a segment. -/
theorem test_lpcSample_window : (after (exec (.lpcSample 0 30) (holding { armed 14 2 with
      lpcP1 := 20, lpcR := Vector.replicate 8 { r0 := 400, r1 := 0, r2 := 0 } }))).map (fun t => (t.chan 0).lpcR[1]) =
    some { r0 := 1300, r1 := 600, r2 := 0 } := by decide +kernel

/-- T-LPC-3, segment 0, and T-LPC-6. -/
theorem test_lpcSolve : (after (exec (.lpcSolve 0) (holding { armed 16 16 with
      lpcR := (Vector.replicate 8 { r0 := 75, r1 := 50, r2 := 25 }).set 0 { r0 := 2, r1 := 1, r2 := 0 } }))).map
    (fun t => ((t.chan 0).coef[0], (t.chan 0).coef[1], (t.chan 0).coef[14], (t.chan 0).coef[15], (t.chan 0).lpcArmed)) =
    some (1365, -683, 1638, -410, false) := by decide +kernel

/-- T-LPC-2. -/
theorem test_segments : (List.range 14).map (fun i => (segmentOf i 14).val) = [0, 1, 1, 2, 2, 3, 3, 4, 5, 5, 6, 6, 7, 7] := by
  decide +kernel

/-! ## Faults and the ends of a run -/

/-- T-FLT-1, T-FLT-3, T-FLT-4, T-FLT-10, T-FLT-11. -/
theorem test_faults : [[0x02000000], [0x30020000], [0x22200005], [0x50000000, 0x80000000], [0x31000000, 0x80, 0]].map
    (fun ws => (after (step (streaming ws))).map fun t => (t.status, t.pos, t.rspq, t.chans == State.reset.chans)) =
    [some (cause 1, 1, [], true), some (cause 3, 1, [], true), some (cause 4, 1, [], true), some (cause 7, 2, [], true),
     some (cause 5, 3, [], true)] := by decide +kernel

/-- T-FLT-14: an incomplete packet has no effect. -/
theorem test_incomplete : (after (step (streaming [0x31000000, 0]))).map (fun t => (t.status, t.pos, t.rspq, t.pktbuf)) =
    some (Status.reset, 0, [], [0x31000000, 0]) := by decide +kernel

/-- R210: in a cycle with `rst_n = 0` neither port is ready or valid, whatever waits on it; in the next cycle
`cmd_ready` is 1 again, the fault gone and the queue empty. -/
theorem test_reset_ports :
    let s := { faultedState with rspq := [7], pktbuf := [0x31000000], script := [.reset] }
    (s.cmdReady, s.rspValid, s.rspData, s.faultO) = (false, false, none, true) ∧
    (after (step s)).map (fun t => (t.cmdReady, t.rspValid, t.faultO, t.causeO, t.pktbuf)) =
      some (true, false, false, 0, []) := by decide +kernel

/-- Log entry 15: a pending word is valid at the block's turn and not at a move of the host. -/
theorem test_command_port :
    (streamingScheduled [5]).cmdData = some 5 ∧ (streaming [5]).cmdValid = true ∧
    { streaming [5] with script := [.takeRsp] }.cmdValid = false ∧
    { streaming [5] with script := [.takeRsp] }.rspReady = true := by decide

/-- R41: at any other move the head of the queue is presented. -/
theorem test_response_port : { scheduled [.takeRsp] with rspq := [7, 8] }.rspData = some 7 := by decide

/-! ## Witnesses: each statement's hypotheses are met -/

theorem witness_DecodedPacketEncodesBack :
    splitPacket [0x50010000, 14, 7] = some ([0x50010000, 14], [7]) ∧
    decodeWords [0x50010000, 14] = .instr (.lpcStart 1 14) := by decide

theorem witness_FramingCutsOnePacket :
    0 < (encode .nop).length ∧ 7 < (encode (.encBlock 1 14 rampBlock)).length := by decide

theorem witness_IllegalOpcodeFaults :
    (streaming [0x02000000, 5]).status.fault = false ∧ (streaming [0x02000000, 5]).BlocksTurn [] ∧
    (streamingScheduled [0x02000000, 5]).BlocksTurn [.takeRsp] ∧
    (streaming [0x02000000, 5]).pktbuf ++ (streaming [0x02000000, 5]).pending = 0x02000000 :: [5] ∧
    (0x02000000#32).toNat / 2 ^ 24 ∉ legalOpcodes.map Prod.fst ∧
    (0x40FFFFFF#32).toNat / 2 ^ 24 ∉ legalOpcodes.map Prod.fst ∧
    (0xFFFFFFFF#32).toNat / 2 ^ 24 ∉ legalOpcodes.map Prod.fst :=
  ⟨rfl, by decide, by decide, rfl, by simp [legalOpcodes], by simp [legalOpcodes], by simp [legalOpcodes]⟩

theorem witness_ReservedFieldFaults :
    (streaming [0x50100000, 3, 9]).NextPacket (0x50100000 :: [3]) [9] [] ∧
    (streamingScheduled [0x50100000, 3, 9]).NextPacket (0x50100000 :: [3]) [9] [.takeRsp] ∧
    ((0x50100000#32).toNat / 2 ^ 24, Op.lpcStart) ∈ legalOpcodes ∧ 0x50100000#32 &&& Op.lpcStart.mbz ≠ 0#32 ∧
    decode 0x10000007 [] = .instr (.nibDec 7) ∧ decode 0x10000007 [9] = .instr (.nibDec 7) := by decide

theorem witness_ResponseCountFollowsTheTable :
    ∃ t, State.reset.status.fault = false ∧ exec (.nibDec 15) State.reset = .next t ∧ t.status.fault = false :=
  ⟨_, rfl, rfl, rfl⟩

theorem witness_StepExecutesTheNextPacket :
    (streaming [0x50010000, 14]).status.fault = false ∧
    splitPacket ((streaming [0x50010000, 14]).pktbuf ++ (streaming [0x50010000, 14]).pending) =
      some ([0x50010000, 14], []) ∧
    decodeWords [0x50010000, 14] = .instr (.lpcStart 1 14) ∧ (streaming [0x50010000, 14]).script = [] ∧
    (State.reset.withFetchWord 64 0x0000000E_50010000).script = .block :: [] := by decide

theorem witness_IncompletePacketHasNoEffect :
    let s := streaming [0x31000000, 0]
    let w := { State.reset with pktbuf := [0x31000000, 0] }
    let b := { w with script := [.block, .takeRsp] }
    (s.status.fault = false ∧ s.BlocksTurn [] ∧ s.pktbuf ++ s.pending ≠ [] ∧ splitPacket (s.pktbuf ++ s.pending) = none ∧
      s.pending ≠ []) ∧
    (w.status.fault = false ∧ w.BlocksTurn [] ∧ w.pktbuf ++ w.pending ≠ [] ∧
      splitPacket (w.pktbuf ++ w.pending) = none ∧ w.pending = [] ∧ w.script = []) ∧
    (b.status.fault = false ∧ b.BlocksTurn [.takeRsp] ∧ b.pktbuf ++ b.pending ≠ [] ∧
      splitPacket (b.pktbuf ++ b.pending) = none ∧ b.pending = [] ∧ b.script = .block :: [.takeRsp]) := by decide

theorem witness_RunEndsInOneOfThreeWays :
    (step faultedState = .fault .faulted ∧ step State.reset = .fault .finished ∧
      step { State.reset with pktbuf := [0x31000000, 0] } = .fault .stuck) ∧
    (let s := { faultedState with script := [.block] }
     s.script = .block :: [] ∧ s.status.fault = true) ∧
    (let s := scheduled [.block]
     s.script = .block :: [] ∧ s.status.fault = false ∧ s.pending = [] ∧ s.pktbuf = []) ∧
    (let s := { scheduled [.block] with pktbuf := [0x31000000, 0] }
     s.script = .block :: [] ∧ s.status.fault = false ∧ s.pending = [] ∧ s.pktbuf ≠ [] ∧ splitPacket s.pktbuf = none) :=
  ⟨⟨rfl, rfl, rfl⟩, by decide, by decide, by decide⟩

theorem witness_FiniteStreamRunEnds : (streaming [0, 0x31000000]).script = [] := by decide

theorem witness_ResponsesStayInOrder :
    (∃ t, (streaming [0x1000000F]).script.head? ≠ some .reset ∧ step (streaming [0x1000000F]) = .next t) ∧
    (scheduled [.present [5], .block]).script = .present [5] :: [.block] ∧
    { streaming [5] with script := [.withdraw] }.script = .withdraw :: [] :=
  ⟨⟨_, by decide, rfl⟩, rfl, rfl⟩

theorem witness_ResponseTransferTakesTheHead :
    { State.reset with rspq := [7, 8], script := [.takeRsp] }.script = .takeRsp :: [] ∧
    { State.reset with rspq := [7, 8], script := [.takeRsp] }.rspq = 7#32 :: [8] ∧
    (scheduled [.takeRsp]).script = .takeRsp :: [] ∧ (scheduled [.takeRsp]).rspq = [] := by decide

/-- A packet for each clause: every cause, and one that passes. -/
theorem witness_CheckOrderGivesTheCause :
    (streaming [0x50000000, 0x80000000]).NextPacket (0x50000000 :: [0x80000000]) [] [] ∧
    (streamingScheduled [0x02000000, 5]).NextPacket (0x02000000 :: []) [5] [.takeRsp] ∧
    firstFailedCheck State.reset 0x02000000 [] = some .illegalOpcode ∧
    firstFailedCheck State.reset 0x00000001 [] = some .reservedField ∧
    firstFailedCheck State.reset 0x30020000 [] = some .badChannel ∧
    firstFailedCheck State.reset 0x22200005 [] = some .badIndex ∧
    firstFailedCheck State.reset 0x31000000 [0x80, 0] = some .coefIndex ∧
    firstFailedCheck State.reset 0x51000001 [] = some .lpcSequence ∧
    firstFailedCheck State.reset 0x50000000 [0x80000000] = some .lpcLength ∧
    firstFailedCheck State.reset 0x50000000 [0x7FFFFFFF] = none := by decide +kernel

theorem witness_FaultStateIsFrozen :
    ∃ t, faultedState.status.fault = true ∧ faultedState.script = [] ∧
      { faultedState with script := [.block] }.script = .block :: [] ∧
      { faultedState with script := [.takeRsp] }.script.head? ≠ some .reset ∧
      step { faultedState with script := [.takeRsp] } = .next t := ⟨_, rfl, rfl, rfl, by decide, rfl⟩

theorem witness_FirstCauseIsTheOnlyOne :
    ∃ t, { faultedState with script := [.block, .withdraw] }.status.fault = true ∧
      Turn.reset ∉ { faultedState with script := [.block, .withdraw] }.script ∧
      Host.Core.run core 2 { faultedState with script := [.block, .withdraw] } = .next t := ⟨_, rfl, by decide, rfl⟩

theorem witness_HardResetClearsTheBlock : { faultedState with script := [.reset] }.script = .reset :: [] := by decide

theorem witness_ResetValuesOfTheTable :
    (streaming [0x01000000, 4]).NextPacket [0x01000000] [4] [] ∧
    (streamingScheduled [0x01000000, 4]).NextPacket [0x01000000] [4] [.takeRsp] ∧ faultedState.status.fault = true ∧
    faultedState.script = [] ∧ { faultedState with script := [.block] }.script = .block :: [] := by decide

theorem witness_MissingChannelFaults :
    (Instr.coefWr 2 0 0).channel = some 2 ∧ (Instr.lpcSolve 15).channel = some 15 ∧ 2 ≤ (2#4).toNat ∧ 2 ≤ (15#4).toNat := by
  decide

/-- Each clause at a boundary value. -/
theorem witness_OperandTraps :
    (1#4).toNat = (1 : Fin 2).val ∧ 2 ≤ (2#4).toNat ∧ (0#4).toNat = 0 ∧ (15#4).toNat = 15 ∧
    8 ≤ (ramp.set 0 0x80)[0].toNat / 16 ∧ (State.reset.chan 1).lpcArmed = false ∧
    ((holding (armed 1 1)).chan 1).lpcArmed = true ∧
    ((holding (armed 1 1)).chan 1).lpcN.toNat ≤ ((holding (armed 1 1)).chan 1).lpcCnt.toNat ∧
    ((holding (armed 1 0)).chan 1).lpcCnt.toNat ≠ ((holding (armed 1 0)).chan 1).lpcN.toNat ∧
    2 ^ 31 ≤ (0x80000000#32).toNat := by decide

theorem witness_NopDoesNothing :
    (streaming [0]).status.fault = false ∧ (streaming [0]).BlocksTurn [] ∧
    (streamingScheduled [0]).BlocksTurn [.takeRsp] ∧
    (streaming [0]).pktbuf ++ (streaming [0]).pending = 0#32 :: [] ∧ (0#32).toNat < 2 ^ 24 ∧
    (streaming [0xFFFFFF]).pktbuf ++ (streaming [0xFFFFFF]).pending = 0xFFFFFF#32 :: [] ∧
    (0xFFFFFF#32).toNat < 2 ^ 24 ∧ 0xFFFFFF#32 ≠ 0#32 := by decide

theorem witness_CoefWriteSetsOneElement : (1#4).toNat = (1 : Fin 2).val := by decide

theorem witness_CoefReadPushesOneElement :
    (1#4).toNat = (1 : Fin 2).val ∧ (15#4).toNat = (15 : Fin 16).val := by decide

theorem witness_HistReadPushesOneCell : (0#4).toNat = (0 : Fin 2).val := by decide

theorem witness_PassStartZeroesTheHistory : (1#4).toNat = (1 : Fin 2).val := by decide

theorem witness_CoefReadSeesTheLastWrite :
    ∃ t, (1#4).toNat < 2 ∧ (1#4).toNat = (1 : Fin 2).val ∧ (15#4).toNat = (15 : Fin 16).val ∧
      exec (.coefWr 1 15 7) State.reset = .next t := ⟨_, by decide, by decide, by decide, rfl⟩

theorem witness_HistWriteSetsOneCell :
    (0#4).toNat = (0 : Fin 2).val ∧ (0#4).toNat < 2 ∧ (1#4).toNat < 2 := by decide

theorem witness_CoefLoadLoadsTheTable : State.reset.status.fault = false := by decide

theorem witness_DecodePassRefinesDecodePassOps :
    State.reset.status.fault = false ∧ ∀ f ∈ [ramp, ramp.set 0 0x7F], f[0].toNat / 16 < 8 := by
  refine ⟨rfl, fun f hf => ?_⟩
  rcases List.mem_pair.mp hf with rfl | rfl <;> decide

theorem witness_EncodePassRefinesEncodePassOps : State.reset.status.fault = false := by decide

theorem witness_StreamingEqualsTheClosedForm :
    State.reset.status.fault = false ∧ ([1, 2, -3] : List I16).length < 2 ^ 31 := by decide +kernel

theorem witness_NibEncTakesTheLowNibble :
    (-8 : Int) ≤ -8 ∧ (-8 : Int) ≤ 7 ∧ (-128 : Int) ≤ 127 ∧ (127 : Int) ≤ 127 ∧ (-128 : Int) ≤ -128 ∧
    (7 : Int) ∈ (trial (0, 0) 0 0 0 [100]).2 := by decide +kernel

theorem witness_NibbleCodecLaws :
    ((-8 : Int) ≤ 7 ∧ (7 : Int) ≤ 7) ∧ ((-128 : Int) ≤ -9 ∧ (-9 : Int) ≤ 127 ∧ ((-9 : Int) < -8 ∨ (7 : Int) < -9)) ∧
    ((-128 : Int) ≤ 8 ∧ (8 : Int) ≤ 127 ∧ ((8 : Int) < -8 ∨ (7 : Int) < 8)) := by decide

theorem witness_NibDecPushesTheSignedByte :
    (streamingScheduled [0x1000000F]).NextPacket [0x1000000F] [] [.takeRsp] ∧
    (streaming [0x1000000F]).NextPacket [0x1000000F] [] [] ∧ (0x1000000F#32).toNat / 2 ^ 24 = 0x10 ∧
    (0x1000000F#32).toNat % 2 ^ 24 < 16 ∧ (streaming [0x10000010]).NextPacket [0x10000010] [] [] ∧
    (0x10000010#32).toNat / 2 ^ 24 = 0x10 ∧ 16 ≤ (0x10000010#32).toNat % 2 ^ 24 := by decide

theorem witness_NibEncPushesTheLowNibble :
    (streamingScheduled [0x110000FF]).NextPacket [0x110000FF] [] [.takeRsp] ∧
    (streaming [0x110000FF]).NextPacket [0x110000FF] [] [] ∧ (0x110000FF#32).toNat / 2 ^ 24 = 0x11 ∧
    (0x110000FF#32).toNat % 2 ^ 24 < 256 ∧ (streaming [0x11000100]).NextPacket [0x11000100] [] [] ∧
    (0x11000100#32).toNat / 2 ^ 24 = 0x11 ∧ 256 ≤ (0x11000100#32).toNat % 2 ^ 24 := by decide

theorem witness_DecodeSampleForms :
    (1024 : Int) = 1024 * 1 + 0 * 0 ∧ (-1024 : Int) = -1024 * 1 + 0 * 0 ∧ (-1025 : Int) = -1025 * 1 + 0 * 0 := by decide

theorem witness_AccumulatorRange : (-8 : Int) ≤ -8 ∧ (-8 : Int) ≤ 7 ∧ (7 : Int) ≤ 7 ∧ 15 ≤ 15 := by decide

theorem witness_DecFrameFollowsTheRecurrence :
    (1#4).toNat = (1 : Fin 2).val ∧ (ramp.set 0 0x7F)[0].toNat / 16 = (7 : Fin 8).val := by decide

theorem witness_QuantiserIsNearest : (-8 : Int) ≤ -8 ∧ (-8 : Int) ≤ 7 ∧ (7 : Int) ≤ 7 := by decide

theorem witness_TrialIsATrialDecoding :
    (-32768 :: List.replicate 13 32767 : List Int).length = 14 ∧
    0 < (-32768 :: List.replicate 13 32767 : List Int).length ∧
    13 < (-32768 :: List.replicate 13 32767 : List Int).length ∧
    ∀ t ∈ (-32768 :: List.replicate 13 32767 : List Int), -32768 ≤ t ∧ t ≤ 32767 := by decide

theorem witness_EmittedFrameDecodesToTheBestTrial : (List.replicate 14 (-32768) : List Int).length = 14 := by decide

theorem witness_SearchFindsTheLeastError :
    (trial ((fun _ => (0, 0)) (1 : Fin 8)) 0 0 0 [0]).1 = (bestCandidate (fun _ => (0, 0)) 0 0 [0]).err := by decide +kernel

theorem witness_EmittedFrameNeverFaults :
    ∃ t w0 w1, exec (.encBlock 1 14 rampBlock) State.reset = .next t ∧ t.rspq = State.reset.rspq ++ [w0, w1] ∧
      (1#4).toNat < 2 := ⟨_, _, _, rfl, rfl, by decide⟩

theorem witness_EncBlockPushesTheFrame :
    (1#4).toNat = (1 : Fin 2).val ∧ 1 ≤ (1#4).toNat ∧ (1#4).toNat ≤ 14 ∧ 1 ≤ (14#4).toNat ∧ (14#4).toNat ≤ 14 := by decide

theorem witness_SamplesBeyondTheLengthAreIgnored :
    (∀ j : Fin 14, j.val < (1#4).toNat → rampBlock[j.val] = (rampBlock.set 1 99)[j.val]) ∧
    rampBlock ≠ rampBlock.set 1 99 := by decide

theorem witness_SegmentsCutTheSequence :
    0 < 1 ∧ (0 : Nat) < 2 ^ 31 - 1 ∧ 2 ^ 31 - 2 < 2 ^ 31 - 1 ∧ ([1, 2, 3, 4, 5, 6, 7] : List Int).length < 8 ∧
    segmentSamples [1] 0 = segmentSamples [] 0 := by decide

theorem witness_LpcStartArms : (1#4).toNat = (1 : Fin 2).val ∧ (0x7FFFFFFF#32).toNat < 2 ^ 31 := by decide

/-- The first sample of a segment, and one inside it (T-LPC-2: of 14 samples, 1 and 2 are in segment 1). -/
theorem witness_LpcSampleAccumulates :
    (1#4).toNat = (1 : Fin 2).val ∧ ((holding (armed 14 1)).chan 1).lpcArmed = true ∧
    ((holding (armed 14 1)).chan 1).lpcCnt.toNat < ((holding (armed 14 1)).chan 1).lpcN.toNat ∧
    (8 * (1 - 1) + 7) / 14 ≠ (8 * 1 + 7) / 14 ∧
    ((holding (armed 14 2)).chan 1).lpcCnt.toNat < ((holding (armed 14 2)).chan 1).lpcN.toNat ∧
    (8 * (2 - 1) + 7) / 14 = (8 * 2 + 7) / 14 := by decide

theorem witness_LpcSolveWritesTheTable :
    (1#4).toNat = (1 : Fin 2).val ∧ ((holding (armed 0 0)).chan 1).lpcArmed = true ∧
    ((holding (armed 0 0)).chan 1).lpcCnt.toNat = ((holding (armed 0 0)).chan 1).lpcN.toNat := by decide

theorem witness_OtherChannelIsIsolated :
    ∃ t, (Instr.passStart 1).channel = some 1 ∧ (1#4).toNat ≠ (0 : Fin 2).val ∧
      exec (.passStart 1) State.reset = .next t := ⟨_, rfl, by decide, rfl⟩

theorem witness_ChannelsCommute :
    ∃ si sij sj sji, (Instr.coefRd 0 3).channel = some 0 ∧ (Instr.histRd 1 1).channel = some 1 ∧ (0#4) ≠ 1#4 ∧
      State.reset.status.fault = false ∧ exec (.coefRd 0 3) State.reset = .next si ∧ exec (.histRd 1 1) si = .next sij ∧
      exec (.histRd 1 1) State.reset = .next sj ∧ exec (.coefRd 0 3) sj = .next sji ∧ sij.status.fault = false ∧
      sji.status.fault = false :=
  ⟨_, _, _, _, rfl, rfl, by decide, rfl, rfl, rfl, rfl, rfl, rfl, rfl⟩

theorem witness_StepKeepsTheInvariant :
    ∃ t, (streaming [0x50010000, 14]).Inv ∧ step (streaming [0x50010000, 14]) = .next t := ⟨_, by decide, rfl⟩

theorem witness_AccumulatorsStayBelowTwoToThe61 :
    ∃ t, (streaming [0x51010000]).Inv ∧ step (streaming [0x51010000]) = .next t := ⟨_, by decide, rfl⟩

end Sys2Proof.Tests
end

section
/-! PROOFS. The reset values and the invariant of the block (10_state.md R25, R26, R29, R32, 41_lpc_solver.md R104):
first the LPC registers of one channel, then the state's operations, then one operation, one host move and one step. -/

namespace Sys2Proof.Machine

/-! ## The reset state -/

@[simp] theorem chan_reset (c : Fin 2) : State.reset.chan c = Channel.reset := by
  simp [State.chan, State.reset]

@[simp] theorem clearChannels_chan (s : State) (c : Fin 2) : s.clearChannels.chan c = Channel.reset := chan_reset c

theorem reset_coef (i : Fin 16) : Channel.reset.coef[i.val] = 0#16 := by simp [Channel.reset]

theorem reset_lpcR (k : Fin 8) : Channel.reset.lpcR[k.val] = LagSums.zero := by simp [Channel.reset]

/-- The packet of `SOFT_RESET` is the one word of R67. -/
theorem decodeWords_softReset : decodeWords [0x01000000] = .instr .softReset := by decide

/-- Settles O19: the table of R32 read off `Channel.reset`, `SOFT_RESET` through the step on the next packet, and the
fault state through its block turn, which transfers nothing. -/
theorem resetValuesOfTheTable : Obligations.ResetValuesOfTheTable := by
  unfold Obligations.ResetValuesOfTheTable
  refine ⟨fun c => ?_, rfl, rfl, rfl, rfl, fun s => rfl, fun s rest turns hn => ?_,
    fun s turns hf => ⟨fun hs => ?_, fun hs => ?_⟩, rfl, rfl⟩
  · rw [chan_reset]
    exact ⟨reset_coef, rfl, rfl, rfl, rfl, rfl, rfl, rfl, reset_lpcR⟩
  · rw [step_nextPacket hn, decodeWords_softReset]
    rfl
  · rw [step_nil hs, blockTurn_faulted hf, endOfRun, if_pos hf]
  · exact step_block_idle hs (.inl hf)

/-! ## The LPC registers of a channel -/

theorem LagSums.zero_within (m : Nat) : LagSums.zero.Within m := by
  simp only [LagSums.Within, LagSums.zero]
  omega

theorem LagSums.Within.mono {r : LagSums} {m n : Nat} (h : r.Within m) (hmn : m ≤ n) : r.Within n := by
  simp only [LagSums.Within] at h ⊢
  omega

/-- One more sample adds one product of two patterns to each sum (R100, R104). -/
theorem LagSums.Within.accumulate {r : LagSums} {m : Nat} (h : r.Within m) (x p1 p2 : I16) :
    (r.accumulate x.toInt p1.toInt p2.toInt).Within (m + 1) := by
  have h0 := mul_toInt_mem x x
  have h1 := mul_toInt_mem x p1
  have h2 := mul_toInt_mem x p2
  simp only [LagSums.Within, LagSums.accumulate] at h ⊢
  push_cast
  omega

theorem reset_lpcBounded : Channel.reset.LpcBounded :=
  ⟨BitVec.le_refl _, fun k => reset_lpcR k ▸ LagSums.zero_within _⟩

theorem lpcArm_lpcBounded (ch : Channel) (n : U31) : (ch.lpcArm n).LpcBounded := by
  refine ⟨Nat.zero_le _, fun k => ?_⟩
  have hz : (ch.lpcArm n).lpcR[k.val] = LagSums.zero := by simp [Channel.lpcArm]
  rw [hz]
  exact LagSums.zero_within _

/-- A sample that is expected leaves the count within the length; its segment's sums grow by one product each and the
others stay. -/
theorem lpcReceive_lpcBounded {ch : Channel} (h : ch.LpcBounded) (hlt : ch.lpcCnt < ch.lpcN) (x : I16) :
    (ch.lpcReceive x).LpcBounded := by
  obtain ⟨-, hr⟩ := h
  have hc := lpcReceive_count hlt x
  refine ⟨?_, fun k => ?_⟩
  · rw [BitVec.le_def, hc, lpcReceive_lpcN]
    exact hlt
  · rw [hc, lpcReceive_lpcR]
    split
    · exact (hr k).accumulate x _ _
    · exact (hr k).mono (Nat.le_succ _)

theorem writeCoef_lpcBounded {ch : Channel} (h : ch.LpcBounded) (idx : Nibble) (v : I16) :
    (ch.writeCoef idx v).LpcBounded := h

theorem writeHistory_lpcBounded {ch : Channel} (h : ch.LpcBounded) (h1 h2 : Int) :
    (ch.writeHistory h1 h2).LpcBounded := h

theorem lpcFinish_lpcBounded {ch : Channel} (h : ch.LpcBounded) : ch.lpcFinish.LpcBounded := h

theorem writeHist_lpcBounded {ch : Channel} (h : ch.LpcBounded) (cell : Fin 2) (v : I16) :
    (ch.writeHist cell v).LpcBounded := by
  unfold Channel.writeHist
  split <;> exact h

/-! ## The operations of the state -/

theorem faulted_legal (c : Cause) : (Status.faulted c).Legal :=
  .inr ⟨rfl, by cases c <;> decide⟩

theorem reset_inv : State.reset.Inv :=
  ⟨.inl ⟨rfl, rfl⟩, ⟨rfl, fun _ => rfl⟩, fun c => chan_reset c ▸ reset_lpcBounded⟩

/-- Settles O59, with the LPC registers of the table of R32. -/
theorem resetMeetsTheInvariant : Obligations.ResetMeetsTheInvariant := reset_inv

theorem State.Inv.lpcBounded {s : State} (h : s.Inv) (c : Fin 2) : (s.chan c).LpcBounded := h.2.2 c

theorem setChan_inv {s : State} (h : s.Inv) (c : Fin 2) {ch : Channel} (hch : ch.LpcBounded) :
    (s.setChan c ch).Inv := by
  obtain ⟨hst, hbuf, hlpc⟩ := h
  refine ⟨hst, hbuf, fun d => ?_⟩
  rw [chan_setChan]
  split
  · exact hch
  · exact hlpc d

theorem push_inv {s : State} (h : s.Inv) (words : List Word) : (s.push words).Inv := h

theorem decodeInto_inv {s : State} (h : s.Inv) (c : Fin 2) (k : Fin 8) (f : Frame) : (decodeInto c k f s).Inv :=
  push_inv (setChan_inv h c (writeHistory_lpcBounded (h.lpcBounded c) _ _)) _

theorem encodeInto_inv {s : State} (h : s.Inv) (c : Fin 2) (len : Nat) (b : Block) : (encodeInto c len b s).Inv :=
  push_inv (setChan_inv h c (writeHistory_lpcBounded (h.lpcBounded c) _ _)) _

theorem clearChannels_inv {s : State} (h : s.Inv) : s.clearChannels.Inv := by
  obtain ⟨hst, hbuf, -⟩ := h
  exact ⟨hst, hbuf, fun c => clearChannels_chan s c ▸ reset_lpcBounded⟩

/-- A fault is taken with the packet consumed, so `PKTBUF` is empty in the fault state (R193). -/
theorem takeFault_inv {s : State} (h : s.Inv) (hb : s.pktbuf = []) (c : Cause) : (s.takeFault c).Inv := by
  obtain ⟨-, ⟨hp, -⟩, hlpc⟩ := h
  exact ⟨faulted_legal c, ⟨hp, fun _ => hb⟩, hlpc⟩

theorem consume_inv {s : State} (h : s.Inv) (packet rest : List Word) : (s.consume packet rest).Inv := by
  obtain ⟨hst, -, hlpc⟩ := h
  exact ⟨hst, ⟨rfl, fun _ => rfl⟩, hlpc⟩

/-- A response taken changes the queue and the host's record alone, neither of which the invariant speaks of. -/
theorem takeResponse_inv {s : State} (h : s.Inv) : s.takeResponse.Inv := by
  unfold State.takeResponse
  split <;> exact h

theorem hostMove_inv {s : State} (h : s.Inv) (m : Turn) : (hostMove m s).Inv := by
  cases m with
  | block | present | withdraw => exact h
  | takeRsp => exact takeResponse_inv h
  | reset => exact reset_inv

/-! ## One operation

An operation runs on a state with its packet consumed. What it answers is built from the operand checks, and each of
them goes on or takes a fault; so each check keeps the invariant if what follows it does. -/

/-- Every next state that `r` answers meets the invariant. -/
def AnswersInv (r : Result) : Prop := ∀ t, r = .next t → t.Inv

theorem answersInv_next {t : State} (h : t.Inv) : AnswersInv (.next t) := by
  intro t' e
  cases e
  exact h

section Operation

variable {s : State} (hs : s.Inv) (hb : s.pktbuf = [])

include hs hb

theorem answersInv_raiseFault (c : Cause) : AnswersInv (raiseFault c s) := answersInv_next (takeFault_inv hs hb c)

theorem answersInv_withChannel {k : Fin 2 → Result} (hk : ∀ c, AnswersInv (k c)) (ch : Nibble) :
    AnswersInv (withChannel ch s k) := by
  rcases withChannel_cases ch s k with ⟨-, e⟩ | ⟨c, -, e⟩
  · exact e ▸ answersInv_raiseFault hs hb _
  · exact e ▸ hk c

theorem answersInv_withCell {k : Fin 2 → Result} (hk : ∀ c, AnswersInv (k c)) (idx : Nibble) :
    AnswersInv (withCell idx s k) := by
  rcases withCell_cases idx s k with ⟨-, e⟩ | ⟨c, -, e⟩
  · exact e ▸ answersInv_raiseFault hs hb _
  · exact e ▸ hk c

theorem answersInv_withLength {k : Nat → Result} (hk : ∀ n, AnswersInv (k n)) (len : Nibble) :
    AnswersInv (withLength len s k) := by
  rcases withLength_cases len s k with ⟨-, e⟩ | ⟨-, -, e⟩
  · exact e ▸ answersInv_raiseFault hs hb _
  · exact e ▸ hk _

/-- Only `LPC_START`, `LPC_SAMPLE` and `SOFT_RESET` write a register that the bounds speak of: the first and the last
zero the sums and the count, and `LPC_SAMPLE` checks the count first (R99, R100, R151). -/
theorem answersInv_exec (i : Instr) : AnswersInv (exec i s) := by
  have hlpc := hs.lpcBounded
  cases i with
  | nop => exact answersInv_next hs
  | nibDec | nibEnc => exact answersInv_next (push_inv hs _)
  | softReset => exact answersInv_next (clearChannels_inv hs)
  | coefWr ch idx v =>
    simp only [exec, execCoefWr]
    exact answersInv_withChannel hs hb (fun c =>
      answersInv_next (setChan_inv hs c (writeCoef_lpcBounded (hlpc c) idx v))) ch
  | coefRd ch idx =>
    simp only [exec, execCoefRd]
    exact answersInv_withChannel hs hb (fun c => answersInv_next (push_inv hs _)) ch
  | histWr ch idx v =>
    simp only [exec, execHistWr]
    exact answersInv_withChannel hs hb (fun c => answersInv_withCell hs hb (fun cell =>
      answersInv_next (setChan_inv hs c (writeHist_lpcBounded (hlpc c) cell v))) idx) ch
  | histRd ch idx =>
    simp only [exec, execHistRd]
    exact answersInv_withChannel hs hb (fun c => answersInv_withCell hs hb (fun cell =>
      answersInv_next (push_inv hs _)) idx) ch
  | passStart ch =>
    simp only [exec, execPassStart]
    exact answersInv_withChannel hs hb (fun c =>
      answersInv_next (setChan_inv hs c (writeHistory_lpcBounded (hlpc c) 0 0))) ch
  | decFrame ch f =>
    simp only [exec, execDecFrame]
    refine answersInv_withChannel hs hb (fun c => ?_) ch
    split
    · exact answersInv_next (decodeInto_inv hs c _ f)
    · exact answersInv_raiseFault hs hb _
  | encBlock ch len b =>
    simp only [exec, execEncBlock]
    exact answersInv_withChannel hs hb (fun c => answersInv_withLength hs hb (fun n =>
      answersInv_next (encodeInto_inv hs c n b)) len) ch
  | lpcStart ch n =>
    simp only [exec, execLpcStart]
    refine answersInv_withChannel hs hb (fun c => ?_) ch
    split
    · exact answersInv_next (setChan_inv hs c (lpcArm_lpcBounded _ _))
    · exact answersInv_raiseFault hs hb _
  | lpcSample ch x =>
    simp only [exec, execLpcSample]
    refine answersInv_withChannel hs hb (fun c => ?_) ch
    split
    · next hexp => exact answersInv_next (setChan_inv hs c (lpcReceive_lpcBounded (hlpc c) hexp.2 x))
    · exact answersInv_raiseFault hs hb _
  | lpcSolve ch =>
    simp only [exec, execLpcSolve]
    refine answersInv_withChannel hs hb (fun c => ?_) ch
    split
    · exact answersInv_next (setChan_inv hs c (lpcFinish_lpcBounded (hlpc c)))
    · exact answersInv_raiseFault hs hb _

end Operation

/-! ## One step -/

/-- Settles O58, along the cases of the step: an operation or a rejected packet on the state with the packet consumed,
a transfer of an incomplete packet's words, a turn that passes, or a move of the host. -/
theorem stepKeepsTheInvariant : Obligations.StepKeepsTheInvariant := by
  unfold Obligations.StepKeepsTheInvariant
  intro s t hs h
  obtain ⟨turns, hcases⟩ := step_next_cases h
  have hturns : { s with script := turns }.Inv := hs
  rcases hcases with
    ⟨-, packet, rest, i, -, -, he⟩ | ⟨-, packet, rest, r, -, rfl⟩ | ⟨hf, hp, rfl⟩ | rfl | ⟨m, -, -, rfl⟩
  · exact answersInv_exec (consume_inv hturns packet rest) rfl i t he
  · exact takeFault_inv (consume_inv hturns packet rest) rfl _
  · obtain ⟨hst, -, hlpc⟩ := hs
    exact ⟨hst, ⟨hp, fun h1 => absurd h1 (by simp [hf])⟩, hlpc⟩
  · exact hturns
  · exact hostMove_inv hturns m

end Sys2Proof.Machine
end

section
/-! PROOFS. The channels do not meet and the ports keep their order (20_memory.md R41, R43 to R45, R51, R52): first the
two channels, on the form every operation has (`exec_eq_applyEffect`), then one packet, an incomplete packet and the
response queue, along the cases of the step. -/

namespace Sys2Proof.Machine

/-! ## An effect and the other channel -/

theorem applyEffect_error {s : State} {c : Fin 2} {f : Effect} {cause : Cause} (h : f (s.chan c) = .error cause) :
    s.applyEffect c f = s.takeFault cause := by
  simp only [State.applyEffect, h]

/-- What an effect that takes no fault did: it wrote its channel and pushed its words. -/
theorem applyEffect_ok {s : State} {c : Fin 2} {f : Effect} {x : Channel} {words : List Word}
    (h : f (s.chan c) = .ok (x, words)) : s.applyEffect c f = (s.setChan c x).push words := by
  simp only [State.applyEffect, h]

theorem takeFault_setChan (s : State) (d : Fin 2) (other : Channel) (cause : Cause) :
    (s.setChan d other).takeFault cause = (s.takeFault cause).setChan d other := rfl

section OtherChannel

variable {c d : Fin 2} (hdc : d ≠ c) (s : State) (f : Effect)

include hdc

/-- An effect on one channel leaves the other (R52). -/
theorem chan_applyEffect_ne : (s.applyEffect c f).chan d = s.chan d := by
  cases h : f (s.chan c) with
  | error cause => rw [applyEffect_error h, takeFault_chan]
  | ok r => rw [applyEffect_ok h, push_chan, chan_setChan_ne _ _ _ hdc]

/-- An effect on one channel does not see the other: exchanging the other's registers before it or after it is the
same (R52). -/
theorem applyEffect_setChan_ne (other : Channel) :
    (s.setChan d other).applyEffect c f = (s.applyEffect c f).setChan d other := by
  have hread : (s.setChan d other).chan c = s.chan c := chan_setChan_ne _ _ _ hdc.symm
  cases h : f (s.chan c) with
  | error cause => rw [applyEffect_error h, applyEffect_error (hread ▸ h), takeFault_setChan]
  | ok r => rw [applyEffect_ok h, applyEffect_ok (hread ▸ h), push_setChan, setChan_comm _ _ _ hdc]

end OtherChannel

/-- Settles O56: with a `CH` that names a channel the operation is an effect on that one, else it is the fault entry,
which touches no channel. -/
theorem otherChannelIsIsolated : Obligations.OtherChannelIsIsolated := by
  unfold Obligations.OtherChannelIsIsolated
  intro i s t ch d other hi hne he
  by_cases hch : ch.toNat < 2
  · obtain ⟨f, hf⟩ := exec_eq_applyEffect hi (c := ⟨ch.toNat, hch⟩) rfl
    have hdc : d ≠ ⟨ch.toNat, hch⟩ := fun e => hne (congrArg Fin.val e).symm
    rw [hf] at he ⊢
    cases he
    exact ⟨chan_applyEffect_ne hdc s f, congrArg _ (applyEffect_setChan_ne hdc s f other)⟩
  · have hbad := exec_badChannel hi (Nat.not_lt.mp hch)
    rw [hbad] at he ⊢
    cases he
    exact ⟨rfl, rfl⟩

/-! ## Effects without a fault -/

theorem ok_of_applyEffect_faultFree {s : State} {c : Fin 2} {f : Effect}
    (h : (s.applyEffect c f).status.fault = false) : ∃ x words, f (s.chan c) = .ok (x, words) := by
  cases hf : f (s.chan c) with
  | error cause => simp [applyEffect_error hf] at h
  | ok r => exact ⟨r.1, r.2, rfl⟩

/-- An operation with a channel operand that ends without a fault somewhere is an effect on a channel that exists. -/
theorem exec_effect_of_faultFree {i : Instr} {s t : State} {ch : Nibble} (hi : i.channel = some ch)
    (he : exec i s = .next t) (ht : t.status.fault = false) :
    ∃ (c : Fin 2) (f : Effect), ch.toNat = c.val ∧ ∀ u, exec i u = .next (u.applyEffect c f) := by
  by_cases hch : ch.toNat < 2
  · obtain ⟨f, hf⟩ := exec_eq_applyEffect hi (c := ⟨ch.toNat, hch⟩) rfl
    exact ⟨_, f, rfl, hf⟩
  · rw [exec_badChannel hi (Nat.not_lt.mp hch)] at he
    cases he
    simp at ht

/-- Settles O57. Neither operation changes what the other one reads (`chan_applyEffect_ne`), so each one's outcome
without a fault is its outcome on the first state, and writes to different channels commute. -/
theorem channelsCommute : Obligations.ChannelsCommute := by
  unfold Obligations.ChannelsCommute
  intro i j s si sij sj sji chI chJ hi hj hne _ hsi hsij hsj hsji hfij hfji
  obtain ⟨c, f, hc, hf⟩ := exec_effect_of_faultFree hi hsji hfji
  obtain ⟨d, g, hd, hg⟩ := exec_effect_of_faultFree hj hsij hfij
  have hcd : c ≠ d := fun e => hne (BitVec.eq_of_toNat_eq (by rw [hc, hd, e]))
  rw [hf] at hsi hsji
  rw [hg] at hsj hsij
  cases hsi; cases hsj; cases hsij; cases hsji
  have hfc : (s.applyEffect d g).chan c = s.chan c := chan_applyEffect_ne hcd s g
  have hgd : (s.applyEffect c f).chan d = s.chan d := chan_applyEffect_ne hcd.symm s f
  obtain ⟨x, wordsI, hx'⟩ := ok_of_applyEffect_faultFree hfji
  obtain ⟨y, wordsJ, hy'⟩ := ok_of_applyEffect_faultFree hfij
  have hx : f (s.chan c) = .ok (x, wordsI) := hfc ▸ hx'
  have hy : g (s.chan d) = .ok (y, wordsJ) := hgd ▸ hy'
  rw [applyEffect_ok hx', applyEffect_ok hy', applyEffect_ok hx, applyEffect_ok hy]
  refine ⟨?_, wordsI, wordsJ, rfl, rfl, rfl, rfl⟩
  rw [push_setChan, push_setChan, setChan_comm _ _ _ hcd]
  rfl

/-! ## One packet -/

/-- Settles O8: the step on the next packet, read on each of the two schedules. -/
theorem stepExecutesTheNextPacket : Obligations.StepExecutesTheNextPacket := by
  unfold Obligations.StepExecutesTheNextPacket
  intro s packet rest i hf hp hd
  have hexec : ∀ turns, s.BlocksTurn turns → step s = exec i ({ s with script := turns }.consume packet rest) := by
    intro turns ht
    rw [step_nextPacket ⟨hf, ht, hp⟩, hd]
  refine ⟨fun hs => ?_, fun turns hs => hexec turns (.inr hs)⟩
  rw [hexec [] (.inl ⟨hs, rfl⟩), ← hs]
  rfl

theorem cmdReady_blocksTurn {s : State} {turns : List Turn} (ht : s.BlocksTurn turns)
    (h : s.status.fault = false) : s.cmdReady = true := by
  simp [State.cmdReady, rstN_blocksTurn ht, h]

/-- Settles O9. With no word on the stream the words of the incomplete packet are all in `PKTBUF`, which is therefore
not empty: the run is stuck, not finished. -/
theorem incompletePacketHasNoEffect : Obligations.IncompletePacketHasNoEffect := by
  unfold Obligations.IncompletePacketHasNoEffect
  intro s turns hf ht hne hp
  refine ⟨step_partly ht hf hp, fun hw hs => step_block_idle hs (.inr ⟨hf, hp, hw⟩), fun hw hs => ?_,
    cmdReady_blocksTurn ht hf⟩
  have hbuf : s.pktbuf ≠ [] := by simpa [hw] using hne
  rw [step_nil hs, blockTurn_waiting hf hp hw]
  simp [endOfRun, hf, hbuf]

/-! ## The response queue -/

theorem takeResponse_nil {s : State} (h : s.rspq = []) : s.takeResponse = s := by
  simp only [State.takeResponse, h]

theorem takeResponse_cons {s : State} {w : Word} {ws : List Word} (h : s.rspq = w :: ws) :
    s.takeResponse = { s with rspq := ws, taken := s.taken ++ [w] } := by
  simp only [State.takeResponse, h]

/-- Taking a response moves the word from the queue to the host and keeps the order (R41, R51). -/
theorem takeResponse_delivered (s : State) :
    s.takeResponse.taken ++ s.takeResponse.rspq = s.taken ++ s.rspq := by
  cases h : s.rspq with
  | nil => rw [takeResponse_nil h, h]
  | cons w ws => simp [takeResponse_cons h]

/-- No move of the host but `rst_n` changes the sequence of words delivered and queued. -/
theorem hostMove_delivered {m : Turn} (hm : m ≠ .reset) (s : State) :
    (hostMove m s).taken ++ (hostMove m s).rspq = s.taken ++ s.rspq := by
  cases m with
  | reset => exact absurd rfl hm
  | takeRsp => exact takeResponse_delivered s
  | block | present | withdraw => rfl

/-- An operation pushes behind the words delivered and queued (R51). -/
theorem exec_delivered {i : Instr} {s t : State} (h : exec i s = .next t) :
    ∃ words, t.taken ++ t.rspq = s.taken ++ s.rspq ++ words := by
  obtain ⟨-, -, -, htaken, -, words, hrspq⟩ := exec_keeps h
  exact ⟨words, by rw [htaken, hrspq, List.append_assoc]⟩

/-- Settles O12: of the cases of a step only an operation pushes words and only a transfer on the response port moves
one; presenting and withdrawing are the host's moves as they are defined. -/
theorem responsesStayInOrder : Obligations.ResponsesStayInOrder := by
  unfold Obligations.ResponsesStayInOrder
  refine ⟨fun s t hreset h => ?_, fun s words turns hs => step_host hs (by simp),
    fun s turns hs => step_host hs (by simp)⟩
  obtain ⟨turns, hcases⟩ := step_next_cases h
  rcases hcases with
    ⟨-, packet, rest, i, -, -, he⟩ | ⟨-, packet, rest, r, -, rfl⟩ | ⟨-, -, rfl⟩ | rfl | ⟨m, -, hs, rfl⟩
  · obtain ⟨words, hwords⟩ := exec_delivered he
    exact ⟨words, hwords⟩
  · exact ⟨[], (List.append_nil _).symm⟩
  · exact ⟨[], (List.append_nil _).symm⟩
  · exact ⟨[], (List.append_nil _).symm⟩
  · have hm : m ≠ .reset := fun e => hreset (by simp [hs, e])
    exact ⟨[], by rw [hostMove_delivered hm, List.append_nil]⟩

theorem rstN_takeRsp {s : State} {turns : List Turn} (h : s.script = .takeRsp :: turns) : s.rstN = true := by
  simp [State.rstN, h]

/-- Settles O13: the host's move `takeRsp` on each form of the queue. -/
theorem responseTransferTakesTheHead : Obligations.ResponseTransferTakesTheHead := by
  unfold Obligations.ResponseTransferTakesTheHead
  intro s turns hs
  have hstep : step s = .next ({ s with script := turns } : State).takeResponse := step_host hs (by simp)
  refine ⟨fun w ws hq => ⟨?_, ?_⟩, fun hq => ⟨?_, ?_⟩⟩
  · simp [State.rspData, State.rspValid, rstN_takeRsp hs, hq]
  · rw [hstep, takeResponse_cons (s := { s with script := turns }) hq]
  · simp [State.rspValid, hq]
  · rw [hstep, takeResponse_nil (s := { s with script := turns }) hq]

end Sys2Proof.Machine
end

section
/-! PROOFS. The encodings (30_encoding.md R64 to R69): the packet of an instruction and the instruction of a packet,
framing, and the two faults the decoder raises. -/

namespace Sys2Proof

/-! ## Decoding what was encoded -/

/-- The per-instruction facts about the command word, for all instructions. -/
theorem commandWord_statement (i : Instr) : Laws.CommandWord.Statement i := by
  cases i with
  | nop => exact Laws.CommandWord.nop
  | softReset => exact Laws.CommandWord.softReset
  | nibDec u => exact Laws.CommandWord.nibDec u
  | nibEnc b => exact Laws.CommandWord.nibEnc b
  | coefWr ch idx v => exact Laws.CommandWord.coefWr ch idx v
  | coefRd ch idx => exact Laws.CommandWord.coefRd ch idx
  | histWr ch idx v => exact Laws.CommandWord.histWr ch idx v
  | histRd ch idx => exact Laws.CommandWord.histRd ch idx
  | passStart ch => exact Laws.CommandWord.passStart ch
  | decFrame ch frame => exact Laws.CommandWord.decFrame ch frame
  | encBlock ch len samples => exact Laws.CommandWord.encBlock ch len samples
  | lpcStart ch n => exact Laws.CommandWord.lpcStart ch n
  | lpcSample ch x => exact Laws.CommandWord.lpcSample ch x
  | lpcSolve ch => exact Laws.CommandWord.lpcSolve ch

/-- A word with an operation's code and none of its must-be-zero bits decodes to that operation's operands. -/
theorem decode_of_mbz_eq_zero {op : Op} {w : Word} (hop : opcField w = op.code) (hz : w &&& op.mbz = 0#32)
    (payload : List Word) : decode w payload = .instr (op.operands w payload) := by
  simp only [decode, hop, ofCode_code, hz, if_true]

/-- The second check of R195. -/
theorem decode_of_mbz_ne_zero {op : Op} {w : Word} (hop : opcField w = op.code) (hz : w &&& op.mbz ≠ 0#32)
    (payload : List Word) : decode w payload = .reject .reservedField := by
  simp only [decode, hop, ofCode_code, hz, if_false]

/-- The first check of R195. -/
theorem decode_of_ofCode_none {w : Word} (h : Op.ofCode (opcField w) = none) (payload : List Word) :
    decode w payload = .reject .illegalOpcode := by
  simp only [decode, h]

/-- Settles O1: an instruction's command word passes the decoder's two checks, and its operands with its payload are
the instruction. -/
theorem encodedInstructionDecodesBack : Obligations.EncodedInstructionDecodesBack := by
  unfold Obligations.EncodedInstructionDecodesBack
  intro i
  obtain ⟨hop, hz, hi⟩ := commandWord_statement i
  exact (decode_of_mbz_eq_zero hop hz i.payload).trans (congrArg _ hi)

/-! ## Encoding what was decoded -/

/-- The command word is the one of the instruction it decodes to (R69). -/
theorem command_of_decode {w : Word} {payload : List Word} {i : Instr} (h : decode w payload = .instr i) :
    i.command = w := by
  obtain ⟨op, hop, hz, rfl⟩ := decode_eq_instr h
  exact operands_command hop hz

/-- A payload of the row's length is the payload of the operands read from it (R49, R65). -/
theorem operands_payload {op : Op} {payload : List Word} (h : payload.length = op.payloadWords) (w : Word) :
    (op.operands w payload).payload = payload := by
  cases op with
  | decFrame =>
    match payload, h with
    | [w0, w1], _ => exact frameWords_frameOf w0 w1
  | encBlock =>
    match payload, h with
    | [w0, w1, w2, w3, w4, w5, w6], _ => exact blockWords_blockOf w0 w1 w2 w3 w4 w5 w6
  | lpcStart =>
    match payload, h with
    | [n], _ => rfl
  | nop | softReset | nibDec | nibEnc | coefWr | coefRd | histWr | histRd | passStart | lpcSample | lpcSolve =>
    exact (List.length_eq_zero_iff.mp h).symm

theorem packetLen_of_code {w : Word} {op : Op} (h : opcField w = op.code) : packetLen w = 1 + op.payloadWords := by
  simp only [packetLen, h, ofCode_code]

/-- Settles O2: framing leaves the payload as long as the row of the command word says, so neither the command word
nor the payload loses a bit. -/
theorem decodedPacketEncodesBack : Obligations.DecodedPacketEncodesBack := by
  unfold Obligations.DecodedPacketEncodesBack
  intro stream packet rest i hs hd
  cases packet with
  | nil => exact absurd rfl (splitPacket_append hs).2
  | cons w payload =>
    have hlen := splitPacket_cons_length hs
    have hcommand := command_of_decode hd
    obtain ⟨op, hop, -, rfl⟩ := decode_eq_instr hd
    have hpayload : payload.length = op.payloadWords := by
      rw [packetLen_of_code hop] at hlen
      omega
    rw [encode, hcommand, operands_payload hpayload]

/-! ## Framing -/

theorem packetLen_command (i : Instr) : packetLen i.command = i.payload.length + 1 := by
  obtain ⟨hop, -, -⟩ := commandWord_statement i
  rw [packetLen_of_code hop, payload_length, Nat.add_comm]

/-- Framing waits while a word of the packet is missing (R45). -/
theorem splitPacket_of_short {w : Word} {ws : List Word} (h : ws.length + 1 < packetLen w) :
    splitPacket (w :: ws) = none := if_neg (Nat.not_le.mpr h)

/-- Settles O3: the command word announces exactly the payload that the encoder puts behind it. -/
theorem framingCutsOnePacket : Obligations.FramingCutsOnePacket := by
  unfold Obligations.FramingCutsOnePacket
  intro i rest
  have hlen : (encode i).length = i.payload.length + 1 := rfl
  refine ⟨by rw [hlen, payload_length, Nat.add_comm], splitPacket_of_length (packetLen_command i) rest, fun n hn => ?_⟩
  cases n with
  | zero => rfl
  | succ m =>
    refine splitPacket_of_short ?_
    rw [packetLen_command, List.length_take]
    omega

end Sys2Proof

namespace Sys2Proof.Machine

/-! ## The two faults of the decoder -/

/-- The numbers of R66 are the codes of the table. -/
theorem mem_legalOpcodes {n : Nat} {op : Op} : (n, op) ∈ legalOpcodes ↔ n = op.code.toNat := by
  cases op <;> simp [legalOpcodes, Op.code]

theorem ofCode_eq_none_iff (c : Byte) : Op.ofCode c = none ↔ c.toNat ∉ legalOpcodes.map Prod.fst := by
  simp only [ofCode_eq_none, List.mem_map, Prod.exists, mem_legalOpcodes, exists_and_right, exists_eq_right, not_exists,
    ← BitVec.toNat_inj, ne_eq]

/-- A packet the decoder rejects is consumed and its fault is taken, which changes `STATUS` alone (R193). -/
theorem step_rejected {s : State} {packet rest : List Word} {turns : List Turn} {r : Reject}
    (hn : s.NextPacket packet rest turns) (hd : decodeWords packet = .reject r) :
    step s = .next (({ s with script := turns }.consume packet rest).takeFault (rejectCause r)) := by
  rw [step_nextPacket hn, hd]
  rfl

/-- Settles O5: the illegal values by the table of the codes; a word with one is a packet of its own, which the
decoder rejects. -/
theorem illegalOpcodeFaults : Obligations.IllegalOpcodeFaults := by
  unfold Obligations.IllegalOpcodeFaults
  refine ⟨ofCode_eq_none_iff, by decide +kernel, by decide, fun s w rest turns hf ht hw hill => ?_⟩
  have hnone : Op.ofCode (opcField w) = none := by rwa [ofCode_eq_none_iff, opcField_toNat]
  have hlen : packetLen w = 1 := by simp only [packetLen, hnone]
  have hnext : s.NextPacket [w] rest turns := ⟨hf, ht, hw ▸ splitPacket_of_length (payload := []) hlen rest⟩
  exact step_rejected hnext (decode_of_ofCode_none hnone [])

/-- Settles O6: the second check of the decoder, and that a command word is the one of what it decodes to. -/
theorem reservedFieldFaults : Obligations.ReservedFieldFaults := by
  unfold Obligations.ReservedFieldFaults
  refine ⟨fun s w payload rest turns op hn hop hz => ?_, fun w w' payload payload' i h h' => ?_⟩
  · have hcode : opcField w = op.code := BitVec.eq_of_toNat_eq (by rw [opcField_toNat, mem_legalOpcodes.mp hop])
    rw [step_rejected hn (decode_of_mbz_ne_zero hcode hz payload), Nat.add_comm 1]
    rfl
  · rw [← command_of_decode h, command_of_decode h']

end Sys2Proof.Machine
end

section
/-! PROOFS. The response words of an operation (R66) and the pseudo-operation `COEF_LOAD` (R72). -/

namespace Sys2Proof.Machine

/-! ## The number of response words

What an operation answers is built from the operand checks, and each of them goes on or takes a fault; so each check
pushes what follows it pushes. -/

/-- Every next state without a fault that `r` answers has the queue of `s` with `n` words behind it. -/
def AnswersPushing (n : Nat) (s : State) (r : Result) : Prop :=
  ∀ t, r = .next t → t.status.fault = false → ∃ words, t.rspq = s.rspq ++ words ∧ words.length = n

section Pushing

variable {n : Nat} {s : State}

theorem answersPushing_raiseFault (c : Cause) : AnswersPushing n s (raiseFault c s) := by
  rintro t ⟨⟩ hf
  cases hf

theorem answersPushing_none {t : State} (h : t.rspq = s.rspq) : AnswersPushing 0 s (.next t) := by
  rintro t ⟨⟩ -
  exact ⟨[], by rw [h, List.append_nil], rfl⟩

theorem answersPushing_push {t : State} {words : List Word} (h : t.rspq = s.rspq) (hw : words.length = n) :
    AnswersPushing n s (.next (t.push words)) := by
  rintro t ⟨⟩ -
  exact ⟨words, by rw [push_rspq, h], hw⟩

theorem answersPushing_withChannel {ch : Nibble} {k : Fin 2 → Result} (hk : ∀ c, AnswersPushing n s (k c)) :
    AnswersPushing n s (withChannel ch s k) := by
  rcases withChannel_cases ch s k with ⟨-, e⟩ | ⟨c, -, e⟩
  · exact e ▸ answersPushing_raiseFault _
  · exact e ▸ hk c

theorem answersPushing_withCell {idx : Nibble} {k : Fin 2 → Result} (hk : ∀ c, AnswersPushing n s (k c)) :
    AnswersPushing n s (withCell idx s k) := by
  rcases withCell_cases idx s k with ⟨-, e⟩ | ⟨c, -, e⟩
  · exact e ▸ answersPushing_raiseFault _
  · exact e ▸ hk c

theorem answersPushing_withLength {len : Nibble} {k : Nat → Result} (hk : ∀ m, AnswersPushing n s (k m)) :
    AnswersPushing n s (withLength len s k) := by
  rcases withLength_cases len s k with ⟨-, e⟩ | ⟨-, -, e⟩
  · exact e ▸ answersPushing_raiseFault _
  · exact e ▸ hk _

/-- A check that one operation makes itself, with its outcome in what follows. -/
theorem answersPushing_dite {p : Prop} [Decidable p] {c : Cause} {k : p → Result}
    (hk : ∀ hp, AnswersPushing n s (k hp)) : AnswersPushing n s (if hp : p then k hp else raiseFault c s) := by
  split
  · exact hk _
  · exact answersPushing_raiseFault c

theorem answersPushing_ite {p : Prop} [Decidable p] {c : Cause} {r : Result} (h : AnswersPushing n s r) :
    AnswersPushing n s (if p then r else raiseFault c s) := by
  split
  · exact h
  · exact answersPushing_raiseFault c

/-- `DEC_FRAME` pushes two of its fourteen samples a word (R119). -/
theorem answersPushing_decodeInto (c : Fin 2) (k : Fin 8) (f : Frame) :
    AnswersPushing 7 s (.next (decodeInto c k f s)) :=
  answersPushing_push (setChan_rspq s c _) (by rw [packSamples_length, decodeFrame_length])

/-- The words pushed are the row's, check by check along the operation. -/
theorem answersPushing_exec (i : Instr) : AnswersPushing i.op.responseWords s (exec i s) := by
  cases i with
  | nop | softReset => exact answersPushing_none rfl
  | nibDec | nibEnc => exact answersPushing_push rfl rfl
  | coefWr | passStart =>
    simp only [exec, execCoefWr, execPassStart]
    exact answersPushing_withChannel fun c => answersPushing_none rfl
  | coefRd =>
    simp only [exec, execCoefRd]
    exact answersPushing_withChannel fun c => answersPushing_push rfl rfl
  | histWr =>
    simp only [exec, execHistWr]
    exact answersPushing_withChannel fun c => answersPushing_withCell fun cell => answersPushing_none rfl
  | histRd =>
    simp only [exec, execHistRd]
    exact answersPushing_withChannel fun c => answersPushing_withCell fun cell => answersPushing_push rfl rfl
  | decFrame =>
    simp only [exec, execDecFrame]
    exact answersPushing_withChannel fun c => answersPushing_dite fun hk => answersPushing_decodeInto c _ _
  | encBlock =>
    simp only [exec, execEncBlock]
    exact answersPushing_withChannel fun c => answersPushing_withLength fun m => answersPushing_push rfl rfl
  | lpcStart | lpcSample | lpcSolve =>
    simp only [exec, execLpcStart, execLpcSample, execLpcSolve]
    exact answersPushing_withChannel fun c => answersPushing_ite (answersPushing_none rfl)

end Pushing

/-- Settles O7: the count of `answersPushing_exec` holds in every state. -/
theorem responseCountFollowsTheTable : Obligations.ResponseCountFollowsTheTable := by
  unfold Obligations.ResponseCountFollowsTheTable
  intro i s t _ he hf
  exact answersPushing_exec i t he hf

/-! ## `COEF_LOAD` -/

/-- A table with the elements named in a list overwritten from `v`, in the list's order. -/
def loadElements (v : Vector I16 16) (table : Vector I16 16) : List (Fin 16) → Vector I16 16
  | [] => table
  | i :: is => loadElements v (table.set i.val v[i.val]) is

theorem loadElements_getElem (v : Vector I16 16) (is : List (Fin 16)) (table : Vector I16 16) (j : Fin 16) :
    (loadElements v table is)[j.val] = if j ∈ is then v[j.val] else table[j.val] := by
  induction is generalizing table with
  | nil => simp [loadElements]
  | cons i is ih =>
    rw [loadElements, ih]
    by_cases hj : j ∈ is
    · simp [hj]
    · by_cases hi : i = j
      · simp [hi]
      · simp [hj, Ne.symm hi, Vector.getElem_set_ne, Fin.val_ne_of_ne hi]

/-- With every element named, the table is `v`. -/
theorem loadElements_finRange (v table : Vector I16 16) : loadElements v table (List.finRange 16) = v := by
  apply Vector.ext
  intro j hj
  simpa using loadElements_getElem v (List.finRange 16) table ⟨j, hj⟩

/-- A list of `COEF_WR` on one channel writes the elements it names, in order (R152). -/
theorem execAll_coefWr (c : Fin 2) (v : Vector I16 16) (is : List (Fin 16)) {s : State}
    (hs : s.status.fault = false) :
    execAll (is.map fun i => .coefWr (channelField c) (BitVec.ofNat 4 i.val) v[i.val]) s =
      .next (s.setChan c { s.chan c with coef := loadElements v (s.chan c).coef is }) := by
  induction is generalizing s with
  | nil => exact congrArg _ (setChan_chan s c).symm
  | cons i is ih =>
    have hwrite : (s.chan c).writeCoef (BitVec.ofNat 4 i.val) v[i.val] =
        { s.chan c with coef := (s.chan c).coef.set i.val v[i.val] } := by
      simp [Channel.writeCoef]
    rw [List.map_cons, execAll_cons hs (exec_coefWr (channelField_toNat c) s _ _),
      ih (s := s.setChan c _) hs, hwrite]
    simp [loadElements]

/-- Settles O28: the sixteen writes name every element. -/
theorem coefLoadLoadsTheTable : Obligations.CoefLoadLoadsTheTable := by
  unfold Obligations.CoefLoadLoadsTheTable
  intro s c v hs
  have hexec := execAll_coefWr c v (List.finRange 16) hs
  rw [loadElements_finRange] at hexec
  exact ⟨_, hexec, setChan_eq_with_chans s c _, chan_setChan_self s c _, fun d hd => chan_setChan_ne s c _ hd⟩

end Sys2Proof.Machine
end

section
/-! PROOFS. The nibble codec (40_nibble_codec.md R80 to R85): the two functions and their laws, then the two operations
by themselves and as the next packet. -/

namespace Sys2Proof.Machine

/-! ## The functions -/

theorem nibDec_mem (u : Nibble) : -8 ≤ nibDec u ∧ nibDec u ≤ 7 := by
  rw [nibDec_eq]
  split <;> omega

/-- The pattern `pat_8(NibDec(u))` as a number (R80). -/
theorem nibDec_pattern_toNat (u : Nibble) :
    (BitVec.ofInt 8 (nibDec u)).toNat = if u.toNat < 8 then u.toNat else 0xF0 + u.toNat := by
  rw [BitVec.toNat_ofInt, nibDec_eq]
  split <;> omega

/-- Settles O29, with the closed form of `NibDec` and its pattern. -/
theorem nibDecTable : Obligations.NibDecTable := by
  unfold Obligations.NibDecTable
  refine ⟨by decide, fun u => ⟨nibDec_eq u, (nibDec_mem u).1, (nibDec_mem u).2, ?_⟩⟩
  rw [nibDec_pattern_toNat]
  split <;> omega

/-- `NibEnc` takes the low four bits of the byte's pattern (R81). -/
theorem nibEnc_eq_extractLsb' (v : Int) : nibEnc v = (BitVec.ofInt 8 v).extractLsb' 0 4 := by
  apply BitVec.eq_of_toNat_eq
  have := nibEnc_toNat v
  simp only [BitVec.extractLsb'_toNat, Nat.shiftRight_zero, BitVec.toNat_ofInt]
  omega

/-- Settles O30: `NibEnc` is the remainder mod 16 for every integer, and the quantiser clamps every residual of a
trial. -/
theorem nibEncTakesTheLowNibble : Obligations.NibEncTakesTheLowNibble := by
  unfold Obligations.NibEncTakesTheLowNibble
  refine ⟨fun v h1 h2 => ⟨nibDec_nibEnc h1 h2, ?_⟩, fun v _ _ => ⟨nibEnc_eq_extractLsb' v, nibEnc_toNat v⟩,
    fun pair exp h1 h2 targets => trial_residuals_mem pair exp targets h1 h2⟩
  rw [nibEnc_toNat]
  split <;> omega

theorem nibEnc_nibDec (u : Nibble) : nibEnc (nibDec u) = u := BitVec.ofInt_toInt

theorem nibEnc_emod (v : Int) : nibEnc (v % 16) = nibEnc v := by
  apply BitVec.eq_of_toNat_eq
  have := nibEnc_toNat v
  have := nibEnc_toNat (v % 16)
  omega

/-- Settles O31: a value outside -8..7 is none that `NibDec` takes. -/
theorem nibbleCodecLaws : Obligations.NibbleCodecLaws := by
  unfold Obligations.NibbleCodecLaws
  refine ⟨nibEnc_nibDec, nibDec_mem, fun v => nibDec_nibEnc, fun v _ _ hout => ⟨?_, fun e => ?_⟩⟩
  · exact congrArg nibDec (nibEnc_emod v).symm
  · have := nibDec_mem (nibEnc v)
    omega

/-! ## The operations -/

/-- `NIB_DEC` in every state, the pushed word as a number (R84). -/
theorem exec_nibDec (u : Nibble) (s : State) :
    exec (.nibDec u) s =
      .next (s.push [BitVec.ofNat 32 (if u.toNat < 8 then u.toNat else 0xF0 + u.toNat)]) := by
  rw [← nibDec_pattern_toNat, BitVec.ofNat_toNat]
  rfl

/-- `NIB_ENC` in every state, the pushed word as a number (R85): the sign of the byte does not reach its low nibble. -/
theorem exec_nibEnc (b : Byte) (s : State) :
    exec (.nibEnc b) s = .next (s.push [BitVec.ofNat 32 (b.toNat % 16)]) := by
  have hlow : (nibEnc b.toInt).toNat = b.toNat % 16 := by
    have := nibEnc_toNat b.toInt
    have := BitVec.toInt_eq_toNat_cond b
    omega
  rw [← hlow, BitVec.ofNat_toNat]
  rfl

/-! ## A packet of one word -/

/-- The bits `k` to `k + m - 1` of a number are 0 exactly when what stands below bit `k + m` is below `2^k`. -/
theorem and_mask_eq_zero_iff (x k m : Nat) : x &&& (2 ^ m - 1) <<< k = 0 ↔ x % 2 ^ (k + m) < 2 ^ k := by
  have hfield : x &&& (2 ^ m - 1) <<< k = x / 2 ^ k % 2 ^ m * 2 ^ k := by
    rw [← Nat.shiftRight_eq_div_pow, ← Nat.and_two_pow_sub_one_eq_mod, ← Nat.shiftLeft_eq]
    apply Nat.eq_of_testBit_eq
    intro i
    by_cases h : k ≤ i <;> simp [h, Bool.and_comm]
  rw [hfield, Nat.mul_eq_zero, Nat.pow_add, ← Nat.mod_mul_right_div_self]
  simp [Nat.div_eq_zero_iff]

/-- The must-be-zero test of a row whose mask is bits 23 to `k`, on the word as a number (R67). -/
theorem mbz_test_iff {op : Op} {k m : Nat} (hkm : k + m = 24) (hmask : op.mbz.toNat = (2 ^ m - 1) <<< k) (w : Word) :
    w &&& op.mbz = 0#32 ↔ w.toNat % 2 ^ 24 < 2 ^ k := by
  rw [← hkm, ← and_mask_eq_zero_iff, ← hmask, ← BitVec.toNat_and, ← BitVec.toNat_inj]
  rfl

theorem opcField_eq_code {w : Word} {op : Op} (h : w.toNat / 2 ^ 24 = op.code.toNat) : opcField w = op.code :=
  BitVec.eq_of_toNat_eq ((opcField_toNat w).trans h)

section OneWord

variable {s : State} {w : Word} {rest : List Word} {turns : List Turn} {op : Op}
  (hn : s.NextPacket [w] rest turns) (hop : w.toNat / 2 ^ 24 = op.code.toNat)

include hn hop

theorem step_accepted (hz : w &&& op.mbz = 0#32) :
    step s = exec (op.operands w []) ({ s with script := turns }.consume [w] rest) := by
  rw [step_nextPacket hn, decodeWords, decode_of_mbz_eq_zero (opcField_eq_code hop) hz]

theorem step_reserved (hz : w &&& op.mbz ≠ 0#32) :
    step s = .next { s with status := { fault := true, cause := 2 }, pos := s.pos + 1, pktbuf := [],
                            pending := rest, script := turns } :=
  step_rejected hn (decode_of_mbz_ne_zero (opcField_eq_code hop) hz [])

end OneWord

theorem immField_low_nibble (w : Word) : ((immField w).extractLsb' 0 4).toNat = w.toNat % 16 := by
  rw [BitVec.extractLsb'_toNat, immField_toNat, Nat.shiftRight_zero]
  omega

theorem immField_low_byte (w : Word) : ((immField w).extractLsb' 0 8).toNat = w.toNat % 256 := by
  rw [BitVec.extractLsb'_toNat, immField_toNat, Nat.shiftRight_zero]
  omega

/-- Settles O32: the operation by `exec_nibDec`, the packet by its must-be-zero test on bits 23 to 4. -/
theorem nibDecPushesTheSignedByte : Obligations.NibDecPushesTheSignedByte := by
  unfold Obligations.NibDecPushesTheSignedByte
  refine ⟨exec_nibDec, fun s w rest turns hn hop => ?_⟩
  have htest := mbz_test_iff (op := .nibDec) (k := 4) (m := 20) rfl rfl w
  refine ⟨fun hlt => ?_, fun hle => step_reserved (op := .nibDec) hn hop (mt htest.mp (Nat.not_lt.mpr hle))⟩
  rw [step_accepted (op := .nibDec) hn hop (htest.mpr hlt), Op.operands, exec_nibDec, immField_low_nibble]
  rfl

/-- Settles O33: the operation by `exec_nibEnc`, the packet by its must-be-zero test on bits 23 to 8. -/
theorem nibEncPushesTheLowNibble : Obligations.NibEncPushesTheLowNibble := by
  unfold Obligations.NibEncPushesTheLowNibble
  refine ⟨exec_nibEnc, fun s w rest turns hn hop => ?_⟩
  have htest := mbz_test_iff (op := .nibEnc) (k := 8) (m := 16) rfl rfl w
  have hlow : w.toNat % 256 % 16 = w.toNat % 16 := Nat.mod_mod_of_dvd _ (by decide)
  refine ⟨fun hlt => ?_, fun hle => step_reserved (op := .nibEnc) hn hop (mt htest.mp (Nat.not_lt.mpr hle))⟩
  rw [step_accepted (op := .nibEnc) hn hop (htest.mpr hlt), Op.operands, exec_nibEnc, immField_low_byte, hlow]
  rfl

end Sys2Proof.Machine
end

section
/-! PROOFS. The LPC solver (41_lpc_solver.md): the segments of a sequence, the sums of a segment, the pair they give,
then the three operations and the sequence of them that `LPC_DERIVE` is. -/

namespace Sys2Proof.Machine

/-! ## Segments (R95) -/

/-- The first `j` segments in order are the samples before the end of the last of them. -/
theorem flatMap_take_segmentSamples (xs : List Int) {j : Nat} (hj : j ≤ 8) :
    ((List.finRange 8).take j).flatMap (segmentSamples xs) = xs.take (j * xs.length / 8) := by
  induction j with
  | zero => simp
  | succ j ih =>
    have hlast : (List.finRange 8)[j]? = some ⟨j, hj⟩ := by
      rw [List.getElem?_eq_getElem (by simpa using hj), List.getElem_finRange]
      rfl
    rw [List.take_add_one, hlast, List.flatMap_append, ih (Nat.le_of_succ_le hj)]
    simpa using take_append_segmentSamples xs ⟨j, hj⟩

theorem flatMap_segmentSamples (xs : List Int) : (List.finRange 8).flatMap (segmentSamples xs) = xs := by
  have h := flatMap_take_segmentSamples xs (Nat.le_refl 8)
  rwa [List.take_of_length_le (by simp), List.take_of_length_le (by omega)] at h

/-- With fewer than eight samples segment 0 is the empty range from 0 to `N / 8 = 0`. -/
theorem segmentSamples_zero_eq_nil {xs : List Int} (h : xs.length < 8) : segmentSamples xs 0 = [] := by
  simp [segmentSamples, h]

/-- Settles O50, with the index ranges of `segmentOf_eq_iff` and the segments put together in order. -/
theorem segmentsCutTheSequence : Obligations.SegmentsCutTheSequence := by
  unfold Obligations.SegmentsCutTheSequence
  refine ⟨fun i n k hi => ⟨⟨segment_lt hi, segmentOf_val hi⟩, segmentOf_eq_iff hi k⟩, flatMap_segmentSamples,
    fun xs h => ⟨0, segmentSamples_zero_eq_nil h⟩, fun k => by simp [segmentSamples], fun xs ys k h => ?_⟩
  rw [lpcSolve, lpcSolve, h]

/-! ## The sums of a segment (R96, R97, R103) -/

/-- Energy plus or minus the lag-1 sum is not negative, and zero only for silence. -/
theorem lagSums_r1_bound {e : Int} (he : e * e = 1) (xs : List Int) :
    0 ≤ (lagSums xs).r0 + e * (lagSums xs).r1 ∧
      ((lagSums xs).r0 + e * (lagSums xs).r1 = 0 → ∀ x ∈ xs, x = 0) := by
  cases xs with
  | nil => simp [lagSums, dot_nil]
  | cons x xs =>
    obtain ⟨hle, hzero⟩ := lag_one_bound he xs x
    have hx := mul_self_nonneg x
    simp only [lagSums, List.drop_succ_cons, List.drop_zero]
    exact ⟨by linarith, fun h => hzero (by linarith)⟩

/-- Energy plus or minus the lag-2 sum is not negative. -/
theorem lagSums_r2_bound {e : Int} (he : e * e = 1) (xs : List Int) :
    0 ≤ (lagSums xs).r0 + e * (lagSums xs).r2 := by
  match xs with
  | [] => simp [lagSums, dot_nil]
  | [x] => simpa [lagSums, dot_nil] using dot_self_nonneg [x]
  | x :: y :: xs =>
    have h := lag_two_bound he xs x y
    have hx := mul_self_nonneg x
    have hy := mul_self_nonneg y
    simp only [lagSums, List.drop_succ_cons, List.drop_zero]
    linarith

theorem dot_eq_zero_of_forall_eq_zero {xs : List Int} (h : ∀ x ∈ xs, x = 0) (ys : List Int) : dot xs ys = 0 := by
  induction xs generalizing ys with
  | nil => rfl
  | cons x xs ih =>
    obtain ⟨hx, hxs⟩ := List.forall_mem_cons.mp h
    cases ys with
    | nil => rfl
    | cons y ys => rw [dot_cons, hx, ih hxs, zero_mul, zero_add]

theorem LagSums.det_eq_mul (r : LagSums) : r.det = (r.r0 + 1 * r.r1) * (r.r0 + -1 * r.r1) := by
  rw [LagSums.det]
  ring

/-- Settles O51: the determinant is the product of energy plus and minus the lag-1 sum, and either factor vanishes only
for silence. -/
theorem autocorrelationProperties : Obligations.AutocorrelationProperties := by
  unfold Obligations.AutocorrelationProperties
  intro xs r
  obtain ⟨hplus, hplus0⟩ : 0 ≤ r.r0 + 1 * r.r1 ∧ (r.r0 + 1 * r.r1 = 0 → ∀ x ∈ xs, x = 0) :=
    lagSums_r1_bound (by decide) xs
  obtain ⟨hminus, hminus0⟩ : 0 ≤ r.r0 + -1 * r.r1 ∧ (r.r0 + -1 * r.r1 = 0 → ∀ x ∈ xs, x = 0) :=
    lagSums_r1_bound (by decide) xs
  have htwo : 0 ≤ r.r0 + 1 * r.r2 := lagSums_r2_bound (by decide) xs
  have htwo' : 0 ≤ r.r0 + -1 * r.r2 := lagSums_r2_bound (by decide) xs
  have habs {b : Int} (h : 0 ≤ r.r0 + 1 * b) (h' : 0 ≤ r.r0 + -1 * b) : |b| ≤ r.r0 :=
    abs_le.mpr ⟨by linarith, by linarith⟩
  refine ⟨dot_self_nonneg xs, habs hplus hminus, habs htwo htwo', ?_, ?_⟩
  · exact r.det_eq_mul ▸ mul_nonneg hplus hminus
  · rw [r.det_eq_mul, mul_eq_zero]
    refine ⟨fun h => h.elim hplus0 hminus0, fun h => .inl ?_⟩
    have h0 : r.r0 = 0 := dot_eq_zero_of_forall_eq_zero h _
    have h1 : r.r1 = 0 := dot_eq_zero_of_forall_eq_zero (fun x hx => h x (List.mem_of_mem_drop hx)) _
    rw [h0, h1, mul_zero, add_zero]

/-- Sums of fewer than 2^31 products stay below 2^61 in magnitude (R104). -/
theorem LagSums.Within.abs_lt_two_pow_61 {r : LagSums} {m : Nat} (h : r.Within m) (hm : m < 2 ^ 31) :
    |r.r0| < 2 ^ 61 ∧ |r.r1| < 2 ^ 61 ∧ |r.r2| < 2 ^ 61 := by
  obtain ⟨h0, h1, h2⟩ := h
  simp only [abs_lt]
  omega

/-- Settles O60: the step keeps the invariant, and the count that bounds the sums has 31 bits. -/
theorem accumulatorsStayBelowTwoToThe61 : Obligations.AccumulatorsStayBelowTwoToThe61 := by
  unfold Obligations.AccumulatorsStayBelowTwoToThe61
  intro s t hs h c k
  obtain ⟨-, hsums⟩ := (stepKeepsTheInvariant s t hs h).lpcBounded c
  exact (hsums k).abs_lt_two_pow_61 (t.chan c).lpcCnt.isLt

/-! ## The pair of a segment (R97, R98) -/

/-- The pattern of a saturated quotient reads back as that quotient (R12, R13). -/
theorem toInt_pat16_clamp16_rdiv (a b : Int) :
    (pat16 (clamp16 (rdiv a b))).toInt = max (-32768) (min 32767 ((2 * a + b) / (2 * b))) := by
  rw [toInt_pat16 (clamp16_mem _).1 (clamp16_mem _).2, clamp16_eq, rdiv]

/-- The two patterns of a segment's pair read back as the rule's formulas. -/
theorem toInt_pat16_solvePair (r : LagSums) :
    (pat16 (solvePair r).1).toInt =
      (if r.det ≤ 0 then 0
       else max (-32768) (min 32767 ((2 * (2048 * r.r1 * (r.r0 - r.r2)) + r.det) / (2 * r.det)))) ∧
    (pat16 (solvePair r).2).toInt =
      (if r.det ≤ 0 then 0
       else max (-32768) (min 32767 ((2 * (2048 * (r.r0 * r.r2 - r.r1 * r.r1)) + r.det) / (2 * r.det)))) := by
  unfold solvePair
  split
  · exact ⟨rfl, rfl⟩
  · exact ⟨toInt_pat16_clamp16_rdiv _ _, toInt_pat16_clamp16_rdiv _ _⟩

/-! ## The three operations -/

@[simp] theorem lpcFinish_coef (ch : Channel) :
    ch.lpcFinish.coef = tableOf (fun k => solvePair ch.lpcR[k.val]) := rfl

/-- Settles O52: `exec_lpcStart`, and the length keeps its value in 31 bits. -/
theorem lpcStartArms : Obligations.LpcStartArms := by
  unfold Obligations.LpcStartArms
  intro s ch n c hc hn
  refine ⟨_, exec_lpcStart hc s hn, setChan_eq_with_chans .., fun d hd => chan_setChan_ne _ _ _ hd, ?_, ?_⟩
  · rw [chan_setChan_self]
    exact (BitVec.toNat_setWidth ..).trans (Nat.mod_eq_of_lt hn)
  · rw [chan_setChan_self]
    rfl

/-- A sample is the first of its segment if it is the first of all or the one before it has another quotient in R95. -/
theorem lpcFirst_iff_quotient {ch : Channel} (h : ch.lpcCnt.toNat < ch.lpcN.toNat) :
    ch.lpcFirst = true ↔ ch.lpcCnt.toNat = 0 ∨
      (8 * (ch.lpcCnt.toNat - 1) + 7) / ch.lpcN.toNat ≠ (8 * ch.lpcCnt.toNat + 7) / ch.lpcN.toNat := by
  rw [lpcFirst_iff, Channel.lpcSegment, Ne, Fin.ext_iff, segmentOf_val h, segmentOf_val (by omega)]

/-- Settles O53: the window is the one of R100, the segment the quotient of R95, and the count does not wrap. -/
theorem lpcSampleAccumulates : Obligations.LpcSampleAccumulates := by
  unfold Obligations.LpcSampleAccumulates
  intro s ch x c hc ha hlt i n first
  have hfirst : (s.chan c).lpcFirst = true ↔ first := lpcFirst_iff_quotient hlt
  have hseg (k : Fin 8) : k = (s.chan c).lpcSegment ↔ k.val = (8 * i + 7) / n := by
    rw [Fin.ext_iff, Channel.lpcSegment, segmentOf_val hlt]
  refine ⟨(s.chan c).lpcWindow.1, (s.chan c).lpcWindow.2, _, fun h => ?_, fun h => ?_, exec_lpcSample hc s ha hlt x,
    setChan_eq_with_chans .., fun d hd => chan_setChan_ne _ _ _ hd, ?_, fun k => ?_, ?_⟩
  · rw [Channel.lpcWindow, if_pos (hfirst.mpr h)]
    exact ⟨rfl, rfl⟩
  · rw [Channel.lpcWindow, if_neg (mt hfirst.mp h)]
    exact ⟨rfl, rfl⟩
  · rw [chan_setChan_self]
    exact lpcReceive_count hlt x
  · rw [chan_setChan_self, lpcReceive_lpcR]
    simp only [hseg]
    rfl
  · rw [chan_setChan_self]
    rfl

/-- Settles O54: each element of the table written is the pattern of a coefficient that fits in 16 bits. -/
theorem lpcSolveWritesTheTable : Obligations.LpcSolveWritesTheTable := by
  unfold Obligations.LpcSolveWritesTheTable
  intro s ch c hc ha hn
  refine ⟨_, exec_lpcSolve hc s ha (BitVec.eq_of_toNat_eq hn), setChan_eq_with_chans ..,
    fun d hd => chan_setChan_ne _ _ _ hd, ?_, fun k => ?_⟩
  · rw [chan_setChan_self]
    rfl
  · simp only [chan_setChan_self, lpcFinish_coef, tableOf_even, tableOf_odd]
    exact toInt_pat16_solvePair _

/-! ## A streamed sequence (R102)

`Channel.Received ch ys m` says what the channel holds after the first `m` of the samples `ys`; each `LPC_SAMPLE` of the
samples left, `ys.drop m`, takes it one further. -/

/-- The channel after one received sample after another. -/
def Channel.lpcReceiveAll (ch : Channel) (xs : List I16) : Channel := xs.foldl Channel.lpcReceive ch

theorem lpcReceiveAll_cons (ch : Channel) (x : I16) (xs : List I16) :
    ch.lpcReceiveAll (x :: xs) = (ch.lpcReceive x).lpcReceiveAll xs := rfl

theorem lpcReceiveAll_history (ch : Channel) (xs : List I16) :
    (ch.lpcReceiveAll xs).hist1 = ch.hist1 ∧ (ch.lpcReceiveAll xs).hist2 = ch.hist2 := by
  induction xs generalizing ch with
  | nil => exact ⟨rfl, rfl⟩
  | cons x xs ih => exact ih (ch.lpcReceive x)

section Streaming

variable {ch : Channel} {ys : List Int} {m : Nat} (h : ch.Received ys m)

include h

/-- A channel that has not received all samples accepts `LPC_SAMPLE`. -/
theorem Received_expects (hm : m < ys.length) : ch.lpcArmed = true ∧ ch.lpcCnt < ch.lpcN := by
  obtain ⟨ha, hn, hc, -, -⟩ := h
  exact ⟨ha, by rwa [BitVec.lt_def, hn, hc]⟩

/-- The next of the samples left arrives. -/
theorem Received_next {x : I16} {xs : List I16} (hx : ys.drop m = (x :: xs).map BitVec.toInt) :
    m < ys.length ∧ (ch.lpcReceive x).Received ys (m + 1) ∧ ys.drop (m + 1) = xs.map BitVec.toInt := by
  have hm : m < ys.length := by
    by_contra hge
    rw [List.drop_eq_nil_of_le (by omega)] at hx
    cases hx
  rw [List.drop_eq_getElem_cons hm, List.map_cons, List.cons.injEq] at hx
  exact ⟨hm, Received_succ h hm hx.1.symm, hx.2⟩

end Streaming

/-- After the samples left the channel has received them all. -/
theorem lpcReceiveAll_received {ys : List Int} (xs : List I16) {ch : Channel} {m : Nat} (h : ch.Received ys m)
    (hm : m ≤ ys.length) (hx : ys.drop m = xs.map BitVec.toInt) : (ch.lpcReceiveAll xs).Received ys ys.length := by
  induction xs generalizing ch m with
  | nil => rwa [Nat.le_antisymm (List.drop_eq_nil_iff.mp hx) hm]
  | cons x xs ih =>
    obtain ⟨hlt, hnext, hrest⟩ := Received_next h hx
    exact ih hnext hlt hrest

/-- An `LPC_SAMPLE` for each of the samples left executes without a fault. -/
theorem execAll_lpcSample (c : Fin 2) {ys : List Int} (rest : List Instr) (xs : List I16) {s : State} {m : Nat}
    (hs : s.status.fault = false) (h : (s.chan c).Received ys m) (hx : ys.drop m = xs.map BitVec.toInt) :
    execAll (xs.map (.lpcSample (channelField c)) ++ rest) s =
      execAll rest (s.setChan c ((s.chan c).lpcReceiveAll xs)) := by
  induction xs generalizing s m with
  | nil => simp [Channel.lpcReceiveAll]
  | cons x xs ih =>
    obtain ⟨hlt, hnext, hrest⟩ := Received_next h hx
    obtain ⟨ha, hn⟩ := Received_expects h hlt
    rw [List.map_cons, List.cons_append, execAll_cons hs (exec_lpcSample (channelField_toNat c) s ha hn x),
      ih (s := s.setChan c _) hs (by rwa [chan_setChan_self]) hrest]
    simp [lpcReceiveAll_cons]

/-- The sums of a channel that has received the whole sequence are those of its segments (R96), and the count is the
length. -/
theorem Received_all {ch : Channel} {ys : List Int} (h : ch.Received ys ys.length) :
    ch.lpcArmed = true ∧ ch.lpcCnt = ch.lpcN ∧ ∀ k : Fin 8, ch.lpcR[k.val] = lagSums (segmentSamples ys k) := by
  obtain ⟨ha, hn, hc, hr, -⟩ := h
  exact ⟨ha, BitVec.eq_of_toNat_eq (hc.trans hn.symm), fun k => receivedPart_all ys k ▸ hr k⟩

/-! ## `LPC_DERIVE` (R72, R102) -/

/-- The channel after `LPC_START` and the samples, before `LPC_SOLVE`. -/
def Channel.lpcStreamed (ch : Channel) (xs : List I16) : Channel :=
  (ch.lpcArm (BitVec.ofNat 31 xs.length)).lpcReceiveAll xs

section Derive

variable {xs : List I16} (hlen : xs.length < 2 ^ 31)

include hlen

theorem lpcArm_received (ch : Channel) :
    (ch.lpcArm (BitVec.ofNat 31 xs.length)).Received (xs.map BitVec.toInt) 0 :=
  Received_zero ch (by rw [BitVec.toNat_ofNat, Nat.mod_eq_of_lt hlen, List.length_map])

/-- What the streamed channel holds when `LPC_SOLVE` comes. -/
theorem lpcStreamed_complete (ch : Channel) :
    (ch.lpcStreamed xs).lpcArmed = true ∧ (ch.lpcStreamed xs).lpcCnt = (ch.lpcStreamed xs).lpcN ∧
      ∀ k : Fin 8, (ch.lpcStreamed xs).lpcR[k.val] = lagSums (segmentSamples (xs.map BitVec.toInt) k) :=
  Received_all (lpcReceiveAll_received xs (lpcArm_received hlen ch) (Nat.zero_le _) rfl)

/-- The operations of `LPC_DERIVE` execute without a fault and change the channel alone. -/
theorem execAll_lpcDerive {s : State} (c : Fin 2) (hs : s.status.fault = false) :
    execAll (lpcDerive c xs) s = .next (s.setChan c ((s.chan c).lpcStreamed xs).lpcFinish) := by
  have hch := channelField_toNat c
  have hword : (BitVec.ofNat 32 xs.length).toNat < 2 ^ 31 := (BitVec.toNat_ofNat ..).trans_lt (by omega)
  obtain ⟨harmed, hcount, -⟩ := lpcStreamed_complete hlen (s.chan c)
  have hstream := execAll_lpcSample c [.lpcSolve (channelField c)] xs
    (s := s.setChan c ((s.chan c).lpcArm (BitVec.ofNat 31 xs.length))) hs
    (by rw [chan_setChan_self]; exact lpcArm_received hlen (s.chan c)) rfl
  rw [lpcDerive, execAll_cons hs (exec_lpcStart hch s hword), BitVec.setWidth_ofNat_of_le (by decide), hstream,
    chan_setChan_self, setChan_setChan, ← Channel.lpcStreamed,
    execAll_cons (s := s.setChan c _) hs
      (exec_lpcSolve hch _ (by rwa [chan_setChan_self]) (by rwa [chan_setChan_self]))]
  simp [execAll]

end Derive

/-- Settles O55: the samples are received one after another by `Received_succ`, so that `LPC_SOLVE` solves the sums of
the whole segments. -/
theorem streamingEqualsTheClosedForm : Obligations.StreamingEqualsTheClosedForm := by
  unfold Obligations.StreamingEqualsTheClosedForm
  intro s c xs hs hlen
  obtain ⟨-, -, hsums⟩ := lpcStreamed_complete hlen (s.chan c)
  obtain ⟨h1, h2⟩ := lpcReceiveAll_history ((s.chan c).lpcArm (BitVec.ofNat 31 xs.length)) xs
  refine ⟨_, execAll_lpcDerive hlen c hs, setChan_eq_with_chans .., fun d hd => chan_setChan_ne _ _ _ hd, ?_⟩
  rw [chan_setChan_self]
  refine ⟨?_, hsums, h1, h2, rfl⟩
  rw [lpcFinish_coef]
  exact congrArg tableOf (funext fun k => congrArg solvePair (hsums k))

end Sys2Proof.Machine
end

section
/-! PROOFS. The decoder (42_decoder.md R110 to R121): one sample and its range, one frame as a recurrence over the
history, the two operations, and the sequence of them that `DECODE_PASS` is. -/

namespace Sys2Proof.Machine

/-! ## One sample (R112, R113, R117) -/

theorem decodeSample_eq (coef1 coef2 h1 h2 n : Int) (exp : Nat) :
    decodeSample (coef1, coef2) h1 h2 n exp =
      max (-32768) (min 32767 ((n * 2 ^ exp * 2048 + 1024 + (coef1 * h1 + coef2 * h2)) / 2048)) :=
  clamp16_eq _

/-- Saturating a shifted value is shifting a value saturated eleven bits higher. -/
theorem clamp16_asr_eleven (a : Int) :
    clamp16 (asr a Config.coefFrac) = max (-(2 ^ 26)) (min (2 ^ 26 - 1) a) / 2048 := by
  rw [asr_eleven, clamp16_eq]
  omega

theorem roundedPrediction_eq (pair : Pair) (h1 h2 : Int) :
    roundedPrediction pair h1 h2 = (predict pair h1 h2 + 1024) / 2048 := rfl

/-- Settles O34: (a) saturation and shift commute, (b) is the additive form, and (c) is the floor of the prediction
with half a step added. -/
theorem decodeSampleForms : Obligations.DecodeSampleForms := by
  unfold Obligations.DecodeSampleForms
  intro coef1 coef2 h1 h2 n exp predicted p
  have hp : p = (predicted + 1024) / 2048 := roundedPrediction_eq _ _ _
  refine ⟨clamp16_asr_eleven _, ?_, hp, ?_⟩
  · rw [decodeSample_additive, clamp16_eq, hp, Int.add_comm 1024]
    rfl
  · omega

/-- A product of two `int16` values; -32768 squared is the only one of magnitude 2^30. -/
theorem toInt_mul_toInt_mem (a b : I16) :
    -(32768 * 32767) ≤ a.toInt * b.toInt ∧ a.toInt * b.toInt ≤ 2 ^ 30 := by
  obtain ⟨ha, ha'⟩ := toInt_mem a
  obtain ⟨hb, hb'⟩ := toInt_mem b
  constructor <;> nlinarith

/-- The scaled residual's range: at most fifteen bits above a nibble. -/
theorem residual_mul_scaleOf_mem {n : Int} {exp : Nat} (h1 : -8 ≤ n) (h2 : n ≤ 7) (he : exp ≤ 15) :
    -8 * 32768 ≤ n * scaleOf exp ∧ n * scaleOf exp ≤ 7 * 32768 := by
  have hpos := scaleOf_pos exp
  have hle : scaleOf exp ≤ 2 ^ 15 := pow_le_pow_right₀ (by decide) he
  constructor <;> nlinarith

/-- Settles O35: the ranges of the two products and of the scaled residual, added up. -/
theorem accumulatorRange : Obligations.AccumulatorRange := by
  unfold Obligations.AccumulatorRange
  refine ⟨fun coef1 coef2 h1 h2 n exp hn hn' he => ?_, by decide⟩
  obtain ⟨hlo1, hhi1⟩ := toInt_mul_toInt_mem coef1 h1
  obtain ⟨hlo2, hhi2⟩ := toInt_mul_toInt_mem coef2 h2
  obtain ⟨hlo, hhi⟩ := residual_mul_scaleOf_mem hn hn' he
  simp only [accumulate, predict, Config.coefFrac, Config.roundBias]
  omega

/-! ## One frame (R110, R111, R114 to R116) -/

/-- The residual of sample `j` is in the high nibble of its data byte if `j` is even, else in the low one (R111). -/
theorem frameResiduals_getD (f : Frame) (j : Fin 14) :
    ((frameNibbles f).map nibDec).getD j.val 0 =
      nibDec (f[1 + j.val / 2].extractLsb' (if j.val % 2 = 0 then 4 else 0) 4) := by
  fin_cases j <;> rfl

theorem nibble_toNat (b : Byte) (p : Prop) [Decidable p] :
    (b.extractLsb' (if p then 4 else 0) 4).toNat = if p then b.toNat / 16 else b.toNat % 16 := by
  have := b.isLt
  split <;> simp only [BitVec.extractLsb'_toNat, Nat.shiftRight_eq_div_pow] <;> omega

/-- The history after a frame is its last two samples (R116). -/
theorem decodeFrame_history (pair : Pair) (h1 h2 : Int) (f : Frame) :
    (decodeFrame pair h1 h2 f).2.1 = (decodeFrame pair h1 h2 f).1.getD 13 0 ∧
      (decodeFrame pair h1 h2 f).2.2 = (decodeFrame pair h1 h2 f).1.getD 12 0 := by
  have h := decodeResiduals_history pair (frameExp f) ((frameNibbles f).map nibDec) h1 h2
  rwa [List.length_map, frameNibbles_length, decodeTrace, List.getD_cons_succ, List.getD_cons_succ,
    List.getD_cons_succ, List.getD_cons_succ] at h

/-- Settles O38, from the laws of `decodeResiduals` on the fourteen residuals of a frame. -/
theorem frameGivesFourteenSamples : Obligations.FrameGivesFourteenSamples := by
  unfold Obligations.FrameGivesFourteenSamples
  intro pair h1 h2 f
  obtain ⟨hhist1, hhist2⟩ := decodeFrame_history pair h1 h2 f
  exact ⟨decodeFrame_length pair h1 h2 f, hhist1, hhist2, decodeResiduals_mem _ _ _ _ _⟩

/-! ## The two operations (R118, R119) -/

/-- Settles O36: `exec_passStart`, and the pattern of 0 is 0. -/
theorem passStartZeroesTheHistory : Obligations.PassStartZeroesTheHistory := by
  unfold Obligations.PassStartZeroesTheHistory
  intro s ch c hc
  exact ⟨_, exec_passStart hc s, setChan_eq_with_chans .., chan_setChan_self .., fun d hd => chan_setChan_ne _ _ _ hd⟩

/-- The response words are the samples two by two, the earlier one in the low half (20_memory.md R49). -/
theorem packSamples_eq_map (ys : List Int) :
    packSamples ys = (List.range (ys.length / 2)).map fun m =>
      packHalves (pat16 (ys.getD (2 * m) 0)) (pat16 (ys.getD (2 * m + 1) 0)) := by
  match ys with
  | [] => rfl
  | [_] => simp [packSamples]
  | a :: b :: rest =>
    rw [packSamples, packSamples_eq_map rest, List.length_cons, List.length_cons, Nat.add_assoc,
      Nat.add_div_right _ (by decide), List.range_succ_eq_map, List.map_cons, List.map_map]
    rfl

section DecodeInto

variable (c : Fin 2) (k : Fin 8) (f : Frame) (s : State)

/-- The samples and the new history of a frame decoded with pair `k` of channel `c`. -/
abbrev State.frameResult : List Int × Int × Int :=
  decodeFrame ((s.chan c).pair k) (s.chan c).hist1.toInt (s.chan c).hist2.toInt f

theorem decodeInto_rspq : (decodeInto c k f s).rspq = s.rspq ++ packSamples (s.frameResult c k f).1 := rfl

theorem decodeInto_status : (decodeInto c k f s).status = s.status := rfl

theorem decodeInto_chan_self :
    (decodeInto c k f s).chan c = (s.chan c).writeHistory (s.frameResult c k f).2.1 (s.frameResult c k f).2.2 :=
  chan_setChan_self ..

theorem decodeInto_chan_ne {d : Fin 2} (hd : d ≠ c) : (decodeInto c k f s).chan d = s.chan d :=
  chan_setChan_ne _ _ _ hd

/-- The history cells hold the history itself, which is in the `int16` range (R114, R121). -/
theorem decodeInto_history :
    ((decodeInto c k f s).chan c).hist1.toInt = (s.frameResult c k f).2.1 ∧
      ((decodeInto c k f s).chan c).hist2.toInt = (s.frameResult c k f).2.2 := by
  obtain ⟨⟨hlo1, hhi1⟩, hlo2, hhi2⟩ := decodeResiduals_history_mem ((s.chan c).pair k) (frameExp f)
    ((frameNibbles f).map nibDec) _ _ (toInt_mem (s.chan c).hist1) (toInt_mem (s.chan c).hist2)
  rw [decodeInto_chan_self]
  exact ⟨toInt_pat16 hlo1 hhi1, toInt_pat16 hlo2 hhi2⟩

/-- `HIST2`, `HIST1` and the samples of a frame decoded with pair `k` of channel `c`, by position. -/
def State.frameTrace (j : Nat) : Int :=
  (decodeTrace ((s.chan c).pair k) (frameExp f) (s.chan c).hist1.toInt (s.chan c).hist2.toInt
    ((frameNibbles f).map nibDec)).getD j 0

theorem frameTrace_add_two (j : Nat) : s.frameTrace c k f (j + 2) = (s.frameResult c k f).1.getD j 0 := rfl

/-- Each sample is decoded from the two before it and the residual of its nibble (R114). -/
theorem frameTrace_step (j : Fin 14) :
    s.frameTrace c k f (j.val + 2) =
      decodeSample ((s.chan c).pair k) (s.frameTrace c k f (j.val + 1)) (s.frameTrace c k f j.val)
        (nibDec (f[1 + j.val / 2].extractLsb' (if j.val % 2 = 0 then 4 else 0) 4)) (frameExp f) := by
  rw [← frameResiduals_getD]
  exact decodeTrace_step _ _ _ _ _ _ j.isLt

end DecodeInto

/-- Settles O37: the samples are the trace of the frame's residuals, whose step is the formula of R112. -/
theorem decFrameFollowsTheRecurrence : Obligations.DecFrameFollowsTheRecurrence := by
  unfold Obligations.DecFrameFollowsTheRecurrence
  intro s ch f c k hc hk
  refine ⟨s.frameTrace c k f, _, rfl, rfl, fun j => ?_, exec_decFrame hc s (by rwa [frameIndex_eq]),
    ?_, ?_, fun d hd => decodeInto_chan_ne c k f s hd, rfl⟩
  · have hstep := frameTrace_step c k f s j
    rw [Channel.pair, decodeSample_eq, nibDec_eq, nibble_toNat, frameExp_eq] at hstep
    exact hstep
  · rw [decodeInto_rspq, packSamples_eq_map, decodeFrame_length]
    rfl
  · obtain ⟨hhist1, hhist2⟩ :=
      decodeFrame_history ((s.chan c).pair k) (s.chan c).hist1.toInt (s.chan c).hist2.toInt f
    rw [decodeInto_chan_self, hhist1, hhist2, ← frameTrace_add_two, ← frameTrace_add_two]
    rfl

/-! ## `DECODE_PASS` (R72, R120) -/

/-- From `s` to `t` channel `c` has decoded the samples `ys`: their words are pushed, and of the rest only the
channel's own registers other than its table may differ. -/
structure State.Decodes (c : Fin 2) (ys : List Int) (s t : State) : Prop where
  status : t.status = s.status
  rspq : t.rspq = s.rspq ++ packSamples ys
  coef : (t.chan c).coef = (s.chan c).coef
  others : ∀ d, d ≠ c → t.chan d = s.chan d

theorem Decodes_refl (c : Fin 2) (s : State) : s.Decodes c [] s :=
  ⟨rfl, (List.append_nil _).symm, rfl, fun _ _ => rfl⟩

/-- Decodings one after the other, the first of whole words. -/
theorem Decodes_trans {c : Fin 2} {xs ys : List Int} {s t u : State} (h : s.Decodes c xs t) (h' : t.Decodes c ys u)
    (heven : xs.length % 2 = 0) : s.Decodes c (xs ++ ys) u where
  status := h'.status.trans h.status
  rspq := by rw [h'.rspq, h.rspq, packSamples_append _ _ heven, List.append_assoc]
  coef := h'.coef.trans h.coef
  others d hd := (h'.others d hd).trans (h.others d hd)

theorem decodes_passStart (c : Fin 2) (s : State) :
    s.Decodes c [] (s.setChan c ((s.chan c).writeHistory 0 0)) where
  status := rfl
  rspq := (List.append_nil _).symm
  coef := by rw [chan_setChan_self, writeHistory_coef]
  others _ hd := chan_setChan_ne _ _ _ hd

theorem decodes_decodeInto (c : Fin 2) (k : Fin 8) (f : Frame) (s : State) :
    s.Decodes c (s.frameResult c k f).1 (decodeInto c k f s) where
  status := decodeInto_status c k f s
  rspq := decodeInto_rspq c k f s
  coef := by rw [decodeInto_chan_self, writeHistory_coef]
  others _ hd := decodeInto_chan_ne c k f s hd

/-- The frames after the first continue from the history and the table the first one leaves. -/
theorem decodeFrames_decodeInto (c : Fin 2) {k : Fin 8} {f : Frame} (hk : frameIndex f = k.val) (fs : List Frame)
    (s : State) :
    decodeFrames (s.chan c).pair (s.chan c).hist1.toInt (s.chan c).hist2.toInt (f :: fs) =
      (s.frameResult c k f).1 ++
        decodeFrames ((decodeInto c k f s).chan c).pair ((decodeInto c k f s).chan c).hist1.toInt
          ((decodeInto c k f s).chan c).hist2.toInt fs := by
  have hlt : frameIndex f < 8 := hk ▸ k.isLt
  obtain ⟨hhist1, hhist2⟩ := decodeInto_history c k f s
  rw [hhist1, hhist2, decodeInto_chan_self, writeHistory_pair, decodeFrames, dif_pos hlt,
    show (⟨frameIndex f, hlt⟩ : Fin 8) = k from Fin.ext hk]

/-- A `DEC_FRAME` for each frame decodes the closed form from the channel's own history and table. -/
theorem execAll_decFrame (c : Fin 2) (frames : List Frame) {s : State} (hs : s.status.fault = false)
    (hf : ∀ f ∈ frames, frameIndex f < 8) :
    ∃ t, execAll (frames.map (.decFrame (channelField c))) s = .next t ∧
      s.Decodes c (decodeFrames (s.chan c).pair (s.chan c).hist1.toInt (s.chan c).hist2.toInt frames) t := by
  induction frames generalizing s with
  | nil => exact ⟨s, rfl, Decodes_refl c s⟩
  | cons f fs ih =>
    obtain ⟨hlt, hrest⟩ := List.forall_mem_cons.mp hf
    obtain ⟨k, hk⟩ : ∃ k : Fin 8, frameIndex f = k.val := ⟨⟨_, hlt⟩, rfl⟩
    obtain ⟨t, hexec, ht⟩ := ih (s := decodeInto c k f s) hs hrest
    refine ⟨t, ?_, ?_⟩
    · rw [List.map_cons, execAll_cons hs (exec_decFrame (channelField_toNat c) s hk), hexec]
    · rw [decodeFrames_decodeInto c hk]
      exact Decodes_trans (decodes_decodeInto c k f s) ht (by rw [decodeFrame_length])

/-- Every sample of the frames is asked for, so nothing is cut off. -/
theorem decodePass_all (table : Fin 8 → Pair) {frames : List Frame} (hf : ∀ f ∈ frames, frameIndex f < 8) :
    decodePass table frames (14 * frames.length) = decodeFrames table 0 0 frames := by
  rw [decodePass, ← decodeFrames_length table frames 0 0 hf, List.take_length]

/-- Settles O39: `PASS_START` leaves the history 0, 0 of the closed form, and the frames follow by induction. -/
theorem decodePassRefinesDecodePassOps : Obligations.DecodePassRefinesDecodePassOps := by
  unfold Obligations.DecodePassRefinesDecodePassOps
  intro s c frames hs hf
  have hindex : ∀ f ∈ frames, frameIndex f < 8 := fun f hmem => frameIndex_eq f ▸ hf f hmem
  obtain ⟨t, hexec, ht⟩ := execAll_decFrame c frames (s := s.setChan c ((s.chan c).writeHistory 0 0)) hs hindex
  rw [chan_setChan_self] at ht
  obtain ⟨hstatus, hrspq, hcoef, hothers⟩ := Decodes_trans (decodes_passStart c s) ht rfl
  rw [decodePass_all _ hindex]
  exact ⟨t, by rw [decodePassOps, execAll_cons hs (exec_passStart (channelField_toNat c) s), hexec], hstatus, hrspq,
    decodeFrames_length _ frames 0 0 hindex, hcoef, hothers⟩

end Sys2Proof.Machine
end

section
/-! PROOFS. The encoder (43_encoder.md R130 to R143): one quantised sample, one trial, the search, the emitted frame,
then the operation and the sequence of them that `ENCODE_PASS` is. -/

namespace Sys2Proof.Machine

/-! ## One sample and one trial (R133, R134) -/

theorem quantise_eq (pair : Pair) (h1 h2 : Int) (exp : Nat) (t : Int) :
    quantise pair h1 h2 exp t =
      max (-8) (min 7 (rdiv (t - roundedPrediction pair h1 h2) (scaleOf exp))) :=
  clamp_eq_max_min (by decide) _

/-- Of the multiples of `b`, one that lies between the nearest to `a` and another is no farther from `a` than that
other. -/
theorem abs_sub_mul_le_of_between {a b q n : Int} (hb : 0 < b)
    (h : rdiv a b ≤ q ∧ q ≤ n ∨ n ≤ q ∧ q ≤ rdiv a b) : |a - q * b| ≤ |a - n * b| := by
  obtain ⟨hlo, hhi⟩ := rdiv_nearest a hb
  obtain rfl | hne := eq_or_ne q n
  · exact le_refl _
  rcases h with ⟨hm, hn⟩ | ⟨hn, hm⟩
  · have hstep : (q + 1) * b ≤ n * b := Int.mul_le_mul_of_nonneg_right (by omega) hb.le
    have hnear : rdiv a b * b ≤ q * b := Int.mul_le_mul_of_nonneg_right hm hb.le
    refine le_trans (abs_le.mpr ⟨?_, ?_⟩) (neg_le_abs _) <;> linarith
  · have hstep : n * b ≤ (q - 1) * b := Int.mul_le_mul_of_nonneg_right (by omega) hb.le
    have hnear : q * b ≤ rdiv a b * b := Int.mul_le_mul_of_nonneg_right hm hb.le
    refine le_trans (abs_le.mpr ⟨?_, ?_⟩) (le_abs_self _) <;> linarith

/-- Settles O40: saturation puts the quantiser's value between the nearest integer and every nibble. -/
theorem quantiserIsNearest : Obligations.QuantiserIsNearest := by
  unfold Obligations.QuantiserIsNearest
  intro coef1 coef2 h1 h2 t exp p scale q
  have hq : q = max (-8) (min 7 (rdiv (t - p) scale)) := quantise_eq ..
  refine ⟨hq, fun n hlo hhi => ?_⟩
  have hbetween : rdiv (t - p) scale ≤ q ∧ q ≤ n ∨ n ≤ q ∧ q ≤ rdiv (t - p) scale := by omega
  have hnear := abs_sub_mul_le_of_between (scaleOf_pos exp) hbetween
  rwa [Int.sub_sub, Int.sub_sub, Int.add_comm p, Int.add_comm p] at hnear

theorem squaredError_eq_sq : squaredError = fun t y => (t - y) ^ 2 := by
  funext t y
  exact (sq _).symm

/-- Settles O41, from the laws of a trial; the last bound is `14 * 65535^2 < 2^36`. -/
theorem trialIsATrialDecoding : Obligations.TrialIsATrialDecoding := by
  unfold Obligations.TrialIsATrialDecoding
  intro pair exp h1 h2 targets r y trace
  have hlength : r.2.length = targets.length := trial_residuals_length ..
  refine ⟨(decodeResiduals_length ..).trans hlength, hlength, trial_residual pair exp targets h1 h2, ?_,
    trial_err_nonneg .., fun h14 hrange => ?_⟩
  · rw [← squaredError_eq_sq]
    exact trial_err ..
  · have hle : r.1 ≤ targets.length * 65535 ^ 2 := trial_err_le pair exp targets h1 h2 hrange
    rw [h14] at hle
    exact ⟨hle, by omega⟩

/-! ## The search (R135) -/

/-- The rank of a choice orders first by index, then by exponent. -/
theorem choiceRank_le_iff {idx idx' : Fin 8} {exp exp' : Fin 16} :
    choiceRank (idx, exp) ≤ choiceRank (idx', exp') ↔ idx < idx' ∨ idx = idx' ∧ exp ≤ exp' := by
  simp only [choiceRank]
  omega

/-- The search's result is the trial of its own index and exponent. -/
theorem bestCandidate_trial (table : Fin 8 → Pair) (h1 h2 : Int) (ts : List Int) :
    ((bestCandidate table h1 h2 ts).err, (bestCandidate table h1 h2 ts).residuals) =
      trial (table (bestCandidate table h1 h2 ts).idx) (bestCandidate table h1 h2 ts).exp.val h1 h2 ts := by
  obtain ⟨idx, exp, e, -⟩ := bestCandidate_spec table h1 h2 ts
  rw [e]
  rfl

/-- No trial beats the search's result, and one of equal error comes no earlier. -/
theorem bestCandidate_least (table : Fin 8 → Pair) (h1 h2 : Int) (ts : List Int) (idx : Fin 8) (exp : Fin 16) :
    (bestCandidate table h1 h2 ts).err ≤ (trial (table idx) exp.val h1 h2 ts).1 ∧
      ((trial (table idx) exp.val h1 h2 ts).1 = (bestCandidate table h1 h2 ts).err →
        (bestCandidate table h1 h2 ts).idx < idx ∨
          (bestCandidate table h1 h2 ts).idx = idx ∧ (bestCandidate table h1 h2 ts).exp ≤ exp) := by
  obtain ⟨idx', exp', e, hleast⟩ := bestCandidate_spec table h1 h2 ts
  rw [e]
  obtain ⟨hle, hrank⟩ := hleast idx exp
  exact ⟨hle, fun heq => choiceRank_le_iff.mp (hrank heq)⟩

/-- Settles O42, from the two halves of what the search keeps. -/
theorem searchFindsTheLeastError : Obligations.SearchFindsTheLeastError := by
  unfold Obligations.SearchFindsTheLeastError
  intro table h1 h2 targets
  exact ⟨bestCandidate_trial table h1 h2 targets, bestCandidate_least table h1 h2 targets⟩

/-! ## The emitted frame (R136, R137) -/

/-- The error of decoding the emitted frame with the search's pair is the search's error (R132). -/
theorem decodeFrame_encodeFrame_err (table : Fin 8 → Pair) (h1 h2 : Int) {ts : List Int} (hl : ts.length = 14) :
    (List.zipWith squaredError ts
        (decodeFrame (table (bestCandidate table h1 h2 ts).idx) h1 h2 (encodeFrame table h1 h2 ts)).1).sum =
      (bestCandidate table h1 h2 ts).err := by
  obtain ⟨idx, exp, e, -⟩ := bestCandidate_spec table h1 h2 ts
  have hlength : (candidate table h1 h2 ts idx exp).residuals.length = 14 :=
    (trial_residuals_length ..).trans hl
  have hnibbles : ∀ q ∈ (candidate table h1 h2 ts idx exp).residuals, -8 ≤ q ∧ q ≤ 7 :=
    trial_residuals_mem _ _ _ _ _
  rw [encodeFrame, e, decodeFrame_assembleFrame _ _ _ hlength hnibbles]
  exact (trial_err ..).symm

/-- Settles O43: the frame reads back as the residuals of the search's own trial, and no trial has a lesser error. -/
theorem emittedFrameDecodesToTheBestTrial : Obligations.EmittedFrameDecodesToTheBestTrial := by
  unfold Obligations.EmittedFrameDecodesToTheBestTrial
  intro table h1 h2 targets hl f best
  have hheader : f[0].toNat = 16 * best.idx.val + best.exp.val := assembleFrame_header best
  refine ⟨hheader, assembleFrame_data best, best.idx, by omega, fun idx exp => ?_⟩
  rw [← squaredError_eq_sq, decodeFrame_encodeFrame_err table h1 h2 hl]
  exact (bestCandidate_least table h1 h2 targets idx exp).1

/-- Settles O44: an `ENC_BLOCK` that faults pushes nothing, and the words of one that does not read back as its frame,
whose index is legal. -/
theorem emittedFrameNeverFaults : Obligations.EmittedFrameNeverFaults := by
  unfold Obligations.EmittedFrameNeverFaults
  refine ⟨fun table h1 h2 targets => frameIndex_eq _ ▸ encodeFrame_index table h1 h2 targets, ?_⟩
  intro s s' t ch len ch' samples w0 w1 hexec hrspq hch'
  simp only [exec, execEncBlock] at hexec
  obtain ⟨-, e⟩ | ⟨c, -, e⟩ := withChannel_cases ch s _ <;> rw [e] at hexec
  · cases hexec
    simp at hrspq
  obtain ⟨-, e⟩ | ⟨-, -, e⟩ := withLength_cases len s _ <;> rw [e] at hexec
  · cases hexec
    simp at hrspq
  cases hexec
  have hwords : frameWords _ = [w0, w1] := List.append_cancel_left hrspq
  rw [← hwords, frameOf_frameWords]
  exact ⟨_, exec_decFrame (c := ⟨ch'.toNat, hch'⟩) (k := ⟨_, encodeFrame_index ..⟩) rfl s' rfl, rfl⟩

/-! ## Silence (R140, R142) -/

/-- Zero targets after a zero history are predicted exactly. -/
theorem trial_zero (pair : Pair) (exp n : Nat) :
    trial pair exp 0 0 (List.replicate n 0) = (0, List.replicate n 0) := by
  have hq : quantise pair 0 0 exp 0 = 0 := by
    have hscale := scaleOf_pos exp
    have hround : rdiv 0 (scaleOf exp) = 0 := Int.ediv_eq_zero_of_lt (by omega) (by omega)
    have hp : roundedPrediction pair 0 0 = 0 := by simp [roundedPrediction_eq, predict]
    rw [quantise_eq, hp, Int.sub_zero, hround]
    rfl
  have hy : decodeSample pair 0 0 0 exp = 0 := by
    rw [decodeSample_additive, clamp16_eq]
    simp [predict]
  induction n with
  | zero => rfl
  | succ n ih => simp [List.replicate_succ, trial, hq, hy, ih, squaredError]

/-- Settles O47: every trial has error 0, so the search keeps the first one, whose residuals are 0. -/
theorem silentBlockGivesTheZeroFrame : Obligations.SilentBlockGivesTheZeroFrame := by
  unfold Obligations.SilentBlockGivesTheZeroFrame
  intro table
  obtain ⟨idx, exp, e, hleast⟩ := bestCandidate_spec table 0 0 (List.replicate 14 0)
  have hcand : ∀ i x, candidate table 0 0 (List.replicate 14 0) i x = ⟨0, i, x, List.replicate 14 0⟩ := by
    intro i x
    rw [candidate, trial_zero]
  have hrank : choiceRank (idx, exp) ≤ choiceRank (0, 0) := (hleast 0 0).2 (by rw [hcand, hcand])
  obtain ⟨rfl, rfl⟩ : idx = 0 ∧ exp = 0 := by
    rw [choiceRank_le_iff] at hrank
    omega
  rw [encodeFrame, e, hcand]
  decide

/-! ## The operation (R138 to R140) -/

/-- Settles O45: `exec_encBlock`, with the padded targets position by position. -/
theorem encBlockPushesTheFrame : Obligations.EncBlockPushesTheFrame := by
  unfold Obligations.EncBlockPushesTheFrame
  intro s ch len samples c hc h1 h2 target f
  have htargets : paddedTargets len.toNat samples = List.ofFn target := paddedTargets_eq h2 samples
  refine ⟨_, exec_encBlock hc s h1 h2 samples, ?_⟩
  rw [encodeInto, htargets]
  exact ⟨rfl, chan_setChan_self .., fun d hd => chan_setChan_ne _ _ _ hd, rfl⟩

/-- Beyond the length check only a legal length goes on. -/
theorem withLength_congr {len : Nibble} {k k' : Nat → Result} (h : len.toNat ≤ 14 → k len.toNat = k' len.toNat)
    (s : State) : withLength len s k = withLength len s k' := by
  unfold withLength
  split
  · rfl
  · exact h (by omega)

/-- The targets are the samples below the length. -/
theorem paddedTargets_congr {len : Nat} (hlen : len ≤ 14) {b b' : Block}
    (h : ∀ j : Fin 14, j.val < len → b[j.val] = b'[j.val]) : paddedTargets len b = paddedTargets len b' := by
  rw [paddedTargets_eq hlen, paddedTargets_eq hlen]
  refine congrArg List.ofFn (funext fun j => ?_)
  split
  · rw [h j ‹_›]
  · rfl

/-- Settles O46: with a legal length the two blocks have the same targets, and no check reads a sample. -/
theorem samplesBeyondTheLengthAreIgnored : Obligations.SamplesBeyondTheLengthAreIgnored := by
  unfold Obligations.SamplesBeyondTheLengthAreIgnored
  intro s ch len b b' hagree
  simp only [exec, execEncBlock]
  refine congrArg (withChannel ch s) (funext fun c => withLength_congr (fun hlen => ?_) s)
  rw [encodeInto, encodeInto, paddedTargets_congr hlen hagree]

/-! ## `ENCODE_PASS` (R72, R130, R131, R141) -/

/-- The targets of up to fourteen samples, zeros behind them (R131). -/
def blockTargets (xs : List I16) : List Int :=
  xs.map BitVec.toInt ++ List.replicate (14 - xs.length) 0

theorem blockFrom_getElem (xs : List I16) (j : Fin 14) : (blockFrom xs)[j.val] = xs.getD j.val 0 := by
  fin_cases j <;> rfl

/-- The operand of `ENC_BLOCK` for up to fourteen samples gives back their targets. -/
theorem paddedTargets_blockFrom {xs : List I16} (h : xs.length ≤ 14) :
    paddedTargets xs.length (blockFrom xs) = blockTargets xs := by
  rw [paddedTargets_eq h]
  apply List.ext_getElem
  · rw [List.length_ofFn, blockTargets, List.length_append, List.length_map, List.length_replicate]
    omega
  · intro j hj _
    have hj14 : j < 14 := by simpa using hj
    simp only [List.getElem_ofFn, blockFrom_getElem xs ⟨j, hj14⟩, blockTargets, List.getElem_append,
      List.getElem_map, List.getElem_replicate, List.length_map]
    split
    · rw [List.getD_eq_getElem _ _ ‹_›]
    · rfl

/-- A target survives the history cell it is written to: it is a sample or 0 (R138). -/
theorem toInt_pat16_blockTargets (xs : List I16) (j : Nat) :
    (pat16 ((blockTargets xs).getD j 0)).toInt = (blockTargets xs).getD j 0 := by
  have hmem : ∀ t ∈ blockTargets xs, (pat16 t).toInt = t := by
    intro t ht
    rcases List.mem_append.mp ht with ht | ht
    · obtain ⟨x, -, rfl⟩ := List.mem_map.mp ht
      rw [pat16, BitVec.ofInt_toInt]
    · rw [List.eq_of_mem_replicate ht]
      rfl
  by_cases hj : j < (blockTargets xs).length
  · rw [List.getD_eq_getElem _ _ hj]
    exact hmem _ (List.getElem_mem hj)
  · rw [List.getD_eq_default _ _ (by omega)]
    rfl

/-- The `ENC_BLOCK` of up to fourteen samples. -/
def encBlockOf (c : Fin 2) (xs : List I16) : Instr :=
  .encBlock (channelField c) (BitVec.ofNat 4 xs.length) (blockFrom xs)

theorem exec_encBlockOf (c : Fin 2) {xs : List I16} (h1 : 1 ≤ xs.length) (h2 : xs.length ≤ 14) (s : State) :
    exec (encBlockOf c xs) s =
      .next ((s.setChan c ((s.chan c).writeHistory ((blockTargets xs).getD 13 0) ((blockTargets xs).getD 12 0))).push
        (frameWords (encodeFrame (s.chan c).pair (s.chan c).hist1.toInt (s.chan c).hist2.toInt
          (blockTargets xs)))) := by
  have hlen : (BitVec.ofNat 4 xs.length).toNat = xs.length := by
    rw [BitVec.toNat_ofNat]
    omega
  rw [encBlockOf, exec_encBlock (channelField_toNat c) s (by omega) (by omega), encodeInto, hlen,
    paddedTargets_blockFrom h2]

theorem push_push (s : State) (words words' : List Word) :
    (s.push words).push words' = s.push (words ++ words') := by
  simp [State.push]

/-- An `ENC_BLOCK` for each block encodes the closed form from the channel's own history and table; of the state only
the channel's registers other than its table and the response queue may change. -/
theorem execAll_encBlockOf (c : Fin 2) {blocks : List (List I16)}
    (hlen : ∀ xs ∈ blocks, 1 ≤ xs.length ∧ xs.length ≤ 14) {s : State} (hs : s.status.fault = false) :
    ∃ ch : Channel, ch.coef = (s.chan c).coef ∧
      execAll (blocks.map (encBlockOf c)) s = .next ((s.setChan c ch).push
        ((encodeBlocks (s.chan c).pair (s.chan c).hist1.toInt (s.chan c).hist2.toInt
          (blocks.map blockTargets)).flatMap frameWords)) := by
  induction blocks generalizing s with
  | nil => exact ⟨s.chan c, rfl, by simp [encodeBlocks, execAll]⟩
  | cons xs blocks ih =>
    obtain ⟨⟨h1, h2⟩, hrest⟩ := List.forall_mem_cons.mp hlen
    have hfirst := exec_encBlockOf c h1 h2 s
    set ch1 := (s.chan c).writeHistory ((blockTargets xs).getD 13 0) ((blockTargets xs).getD 12 0) with hch1
    set words := frameWords (encodeFrame (s.chan c).pair _ _ (blockTargets xs)) with hwords
    obtain ⟨ch, hcoef, hexec⟩ := ih hrest (s := (s.setChan c ch1).push words) hs
    rw [push_chan, chan_setChan_self] at hcoef hexec
    refine ⟨ch, hcoef, ?_⟩
    rw [List.map_cons, execAll_cons hs hfirst, hexec, push_setChan, setChan_setChan, push_push, List.map_cons,
      encodeBlocks, List.flatMap_cons, ← hwords]
    simp only [hch1, writeHistory_pair, writeHistory_hist1, writeHistory_hist2, toInt_pat16_blockTargets]

/-- The blocks of a pass: fourteen samples each, the last one what is left (R141). -/
def passBlocks (xs : List I16) : List (List I16) := (List.range (ceilDiv xs.length 14)).map (passBlock xs)

theorem passBlocks_length_mem {xs block : List I16} (h : block ∈ passBlocks xs) :
    1 ≤ block.length ∧ block.length ≤ 14 := by
  obtain ⟨i, hi, rfl⟩ := List.mem_map.mp h
  rw [List.mem_range, ceilDiv] at hi
  rw [passBlock, List.length_take, List.length_drop]
  omega

theorem encodePassOps_eq (c : Fin 2) (xs : List I16) :
    encodePassOps c xs = .passStart (channelField c) :: (passBlocks xs).map (encBlockOf c) := by
  rw [passBlocks, List.map_map]
  rfl

theorem targetBlocks_eq (xs : List I16) :
    targetBlocks (xs.map BitVec.toInt) = (passBlocks xs).map blockTargets := by
  simp [targetBlocks, passBlocks, blockTargets, passBlock]

/-- Settles O48: `PASS_START` leaves the history 0, 0 of the closed form, and the blocks follow by induction. -/
theorem encodePassRefinesEncodePassOps : Obligations.EncodePassRefinesEncodePassOps := by
  unfold Obligations.EncodePassRefinesEncodePassOps
  intro s c xs hs
  obtain ⟨ch, hcoef, hexec⟩ := execAll_encBlockOf c (blocks := passBlocks xs) (fun _ h => passBlocks_length_mem h)
    (s := s.setChan c ((s.chan c).writeHistory 0 0)) hs
  rw [chan_setChan_self] at hcoef hexec
  rw [setChan_setChan, ← targetBlocks_eq] at hexec
  refine ⟨(s.setChan c ch).push ((encodePass (s.chan c).pair (xs.map BitVec.toInt)).flatMap frameWords), ?_, rfl, rfl,
    ?_, fun d hd => chan_setChan_ne _ _ _ hd⟩
  · rw [encodePassOps_eq, execAll_cons hs (exec_passStart (channelField_toNat c) s), hexec]
    rfl
  · rw [push_chan, chan_setChan_self, hcoef, writeHistory_coef]

theorem encodePass_length (table : Fin 8 → Pair) (xs : List Int) :
    (encodePass table xs).length = (xs.length + 13) / 14 := by
  rw [encodePass, encodeBlocks_length, targetBlocks, List.length_map, List.length_range]
  rfl

/-- Settles O49: no emitted frame has a reserved index, so each decodes to fourteen samples, of which the first `N` are
kept. -/
theorem roundTripKeepsTheSampleCount : Obligations.RoundTripKeepsTheSampleCount := by
  unfold Obligations.RoundTripKeepsTheSampleCount
  intro table table' xs
  have hframes := encodePass_length table xs
  have hdecoded : (decodeFrames table' 0 0 (encodePass table xs)).length = 14 * (encodePass table xs).length :=
    decodeFrames_length table' _ 0 0 (encodeBlocks_index table _ 0 0)
  refine ⟨hframes, ?_⟩
  rw [decodePass, List.length_take, hdecoded]
  omega

end Sys2Proof.Machine
end

section
/-! PROOFS. Control and register access (44_control_ops.md R150 to R155, 20_memory.md R50): `NOP` by itself and as the
next packet, then one element of a coefficient table and one history cell, written and read. -/

namespace Sys2Proof.Machine

/-- Settles O4: the eight packets are literals, so the decoder runs on them. -/
theorem exampleWordsDecode : Obligations.ExampleWordsDecode := by
  unfold Obligations.ExampleWordsDecode
  decide

/-! ## `NOP` (R150) -/

/-- A decoded word is the command word of its instruction, and that of `NOP` is 0. -/
theorem decode_eq_nop_iff {w : Word} {payload : List Word} : decode w payload = .instr .nop ↔ w = 0#32 := by
  constructor
  · intro h
    exact (command_of_decode h).symm.trans (by decide)
  · rintro rfl
    exact decode_of_mbz_eq_zero (op := .nop) (by decide) (by decide) payload

/-- At the block's turn a command word whose operation has no payload is the next packet by itself (R66). -/
theorem nextPacket_oneWord {s : State} {w : Word} {rest : List Word} {turns : List Turn} {op : Op}
    (hf : s.status.fault = false) (ht : s.BlocksTurn turns) (hw : s.pktbuf ++ s.pending = w :: rest)
    (hop : opcField w = op.code) (hpayload : op.payloadWords = 0) : s.NextPacket [w] rest turns := by
  have hlen : packetLen w = 1 := by rw [packetLen_of_code hop, hpayload]
  exact ⟨hf, ht, hw ▸ splitPacket_of_length (payload := []) hlen rest⟩

/-- Settles O22: a word below `2^24` has the `OPC` of `NOP` and is a packet by itself; unless it is 0 it does not decode
to `NOP`, so it fails the must-be-zero test. -/
theorem nopDoesNothing : Obligations.NopDoesNothing := by
  unfold Obligations.NopDoesNothing
  refine ⟨fun s => rfl, fun w payload => decode_eq_nop_iff, fun s w rest turns hf ht hw hlt => ?_⟩
  have hop : w.toNat / 2 ^ 24 = Op.nop.code.toNat := Nat.div_eq_of_lt hlt
  have hcode := opcField_eq_code hop
  have hn := nextPacket_oneWord hf ht hw hcode rfl
  refine ⟨?_, fun hne => step_reserved hn hop fun hz => hne ?_⟩
  · rintro rfl
    exact step_accepted hn hop (by decide)
  · exact decode_eq_nop_iff.mp (decode_of_mbz_eq_zero hcode hz [])

/-! ## Coefficients (R152, R153) -/

theorem readCoef_eq_getElem {idx : Nibble} {j : Fin 16} (h : idx.toNat = j.val) (ch : Channel) :
    ch.readCoef idx = ch.coef[j.val] := by
  simp only [Channel.readCoef, h]

/-- What the elements of both channels hold after one has been written (R152). -/
theorem coef_getElem_setChan_writeCoef (s : State) (c d : Fin 2) (idx : Nibble) (v : I16) (j : Fin 16) :
    ((s.setChan c ((s.chan c).writeCoef idx v)).chan d).coef[j.val] =
      if d = c ∧ j.val = idx.toNat then v else (s.chan d).coef[j.val] := by
  by_cases hd : d = c
  · subst hd
    simp [Channel.writeCoef, Vector.getElem_set, eq_comm]
  · simp [chan_setChan_ne s c _ hd, hd]

/-- Settles O23: only the named channel is set, and of it only the named element. -/
theorem coefWriteSetsOneElement : Obligations.CoefWriteSetsOneElement := by
  unfold Obligations.CoefWriteSetsOneElement
  intro s ch idx v c hc
  refine ⟨_, exec_coefWr hc s idx v, setChan_eq_with_chans s c _, fun d => ?_,
    fun d j => coef_getElem_setChan_writeCoef s c d idx v j⟩
  by_cases hd : d = c
  · subst hd
    rw [chan_setChan_self]
    rfl
  · rw [chan_setChan_ne s c _ hd]

/-- Settles O24, with the pushed element as a number. -/
theorem coefReadPushesOneElement : Obligations.CoefReadPushesOneElement := by
  unfold Obligations.CoefReadPushesOneElement
  intro s ch idx c j hc hj
  rw [exec_coefRd hc, zext32_eq, readCoef_eq_getElem hj]
  rfl

/-- Settles O25: equal fields name the same element of the same channel, and its value after the write is that of
`coef_getElem_setChan_writeCoef`. -/
theorem coefReadSeesTheLastWrite : Obligations.CoefReadSeesTheLastWrite := by
  unfold Obligations.CoefReadSeesTheLastWrite
  intro s t ch idx ch' idx' v c' j' hch hc' hj' hwrite
  obtain ⟨c, hc⟩ : ∃ c : Fin 2, ch.toNat = c.val := ⟨⟨ch.toNat, hch⟩, rfl⟩
  have hsame : ch' = ch ∧ idx' = idx ↔ c' = c ∧ j'.val = idx.toNat := by
    rw [← BitVec.toNat_inj, ← BitVec.toNat_inj, hc, hc', hj', Fin.ext_iff]
  rw [exec_coefWr hc] at hwrite
  cases hwrite
  rw [exec_coefRd hc', zext32_eq, readCoef_eq_getElem hj', coef_getElem_setChan_writeCoef]
  simp only [hsame]
  rfl

/-! ## History cells (R154, R155) -/

theorem readHist_zero (ch : Channel) : ch.readHist 0 = ch.hist1 := rfl

theorem readHist_one (ch : Channel) : ch.readHist 1 = ch.hist2 := rfl

theorem writeHist_zero (ch : Channel) (v : I16) : ch.writeHist 0 v = { ch with hist1 := v } := rfl

theorem writeHist_one (ch : Channel) (v : I16) : ch.writeHist 1 v = { ch with hist2 := v } := rfl

/-- Settles O26: only the named channel is set, and of it the cell that `IDX` names. -/
theorem histWriteSetsOneCell : Obligations.HistWriteSetsOneCell := by
  unfold Obligations.HistWriteSetsOneCell
  intro s ch idx v c hc hidx
  refine ⟨_, exec_histWr hc s (cell := ⟨idx.toNat, hidx⟩) rfl v, setChan_eq_with_chans s c _,
    fun d hd => chan_setChan_ne s c _ hd, ?_, ?_⟩
  · rintro rfl
    rw [chan_setChan_self]
    exact writeHist_zero _ v
  · rintro rfl
    rw [chan_setChan_self]
    exact writeHist_one _ v

/-- Settles O27: the two cells, each with its pattern as a number. -/
theorem histReadPushesOneCell : Obligations.HistReadPushesOneCell := by
  unfold Obligations.HistReadPushesOneCell
  intro s ch c hc
  rw [exec_histRd hc s (idx := 0) (cell := 0) rfl, exec_histRd hc s (idx := 1) (cell := 1) rfl, zext32_eq, zext32_eq,
    readHist_zero, readHist_one]
  exact ⟨rfl, rfl⟩

end Sys2Proof.Machine
end

section
/-! PROOFS. The exceptions (60_exceptions.md R191 to R197): the operand checks of each operation and the fault each of
them takes, the check order of R195 on an operation and on the next packet, and the fault state. -/

namespace Sys2Proof.Machine

/-! ## The operand checks of each operation (R195 checks 4 and 5) -/

theorem withLength_neg {len : Nibble} (h : len.toNat = 0 ∨ len.toNat = 15) (s : State) (k : Nat → Result) :
    withLength len s k = raiseFault .badIndex s := if_pos h

section Traps

variable {ch : Nibble} {c : Fin 2} (hc : ch.toNat = c.val) (s : State)

include hc

theorem exec_histWr_badIndex {idx : Nibble} (h : 2 ≤ idx.toNat) (v : I16) :
    exec (.histWr ch idx v) s = .next (s.takeFault .badIndex) := by
  simp only [exec, execHistWr, withChannel_pos hc, withCell_neg h, raiseFault]

theorem exec_histRd_badIndex {idx : Nibble} (h : 2 ≤ idx.toNat) :
    exec (.histRd ch idx) s = .next (s.takeFault .badIndex) := by
  simp only [exec, execHistRd, withChannel_pos hc, withCell_neg h, raiseFault]

theorem exec_encBlock_badIndex {len : Nibble} (h : len.toNat = 0 ∨ len.toNat = 15) (b : Block) :
    exec (.encBlock ch len b) s = .next (s.takeFault .badIndex) := by
  simp only [exec, execEncBlock, withChannel_pos hc, withLength_neg h, raiseFault]

theorem exec_decFrame_coefIndex {f : Frame} (h : 8 ≤ f[0].toNat / 16) :
    exec (.decFrame ch f) s = .next (s.takeFault .coefIndex) := by
  have hk : ¬frameIndex f < 8 := by rw [frameIndex_eq]; omega
  simp only [exec, execDecFrame, withChannel_pos hc, dif_neg hk, raiseFault]

theorem exec_lpcSample_lpcSequence
    (h : (s.chan c).lpcArmed = false ∨ (s.chan c).lpcN.toNat ≤ (s.chan c).lpcCnt.toNat) (x : I16) :
    exec (.lpcSample ch x) s = .next (s.takeFault .lpcSequence) := by
  have hexp : ¬((s.chan c).lpcArmed = true ∧ (s.chan c).lpcCnt < (s.chan c).lpcN) := by
    rintro ⟨ha, hlt⟩
    rw [BitVec.lt_def] at hlt
    rcases h with h | h
    · simp [ha] at h
    · omega
  simp only [exec, execLpcSample, withChannel_pos hc, if_neg hexp, raiseFault]

theorem exec_lpcSolve_lpcSequence
    (h : (s.chan c).lpcArmed = false ∨ (s.chan c).lpcCnt.toNat ≠ (s.chan c).lpcN.toNat) :
    exec (.lpcSolve ch) s = .next (s.takeFault .lpcSequence) := by
  have hall : ¬((s.chan c).lpcArmed = true ∧ (s.chan c).lpcCnt = (s.chan c).lpcN) := by
    rintro ⟨ha, he⟩
    simp [ha, he] at h
  simp only [exec, execLpcSolve, withChannel_pos hc, if_neg hall, raiseFault]

theorem exec_lpcStart_lpcLength {n : Word} (h : 2 ^ 31 ≤ n.toNat) :
    exec (.lpcStart ch n) s = .next (s.takeFault .lpcLength) := by
  simp only [exec, execLpcStart, withChannel_pos hc, if_neg (Nat.not_lt.mpr h), raiseFault]

end Traps

/-- Settles O20: check 3, which every operation with a channel operand makes first. -/
theorem missingChannelFaults : Obligations.MissingChannelFaults := by
  unfold Obligations.MissingChannelFaults
  intro i ch s hi hch
  exact exec_badChannel hi hch s

/-- Settles O21: checks 4 and 5, operation by operation. -/
theorem operandTraps : Obligations.OperandTraps := by
  unfold Obligations.OperandTraps
  intro s ch c hc
  exact ⟨fun idx v h => ⟨exec_histWr_badIndex hc s h v, exec_histRd_badIndex hc s h⟩,
    fun len b h => exec_encBlock_badIndex hc s h b, fun f h => exec_decFrame_coefIndex hc s h,
    fun x h => exec_lpcSample_lpcSequence hc s h x, exec_lpcSolve_lpcSequence hc s,
    fun n h => exec_lpcStart_lpcLength hc s h⟩

/-! ## The check order on the raw words (R195) -/

/-- The table of numbers finds what the decoder's table finds (R66). -/
theorem lookup_legalOpcodes (w : Word) : legalOpcodes.lookup (w.toNat / 2 ^ 24) = Op.ofCode (opcField w) := by
  rw [← opcField_toNat]
  cases h : Op.ofCode (opcField w) with
  | none =>
    rw [List.lookup_eq_none_iff]
    rintro ⟨n, op⟩ hmem
    rw [mem_legalOpcodes.mp hmem, bne_iff_ne, Ne, BitVec.toNat_inj]
    exact ofCode_eq_none.mp h op
  | some op =>
    rw [ofCode_eq_some.mp h]
    cases op <;> rfl

section RawWords

variable (s : State) {w : Word} (payload : List Word)

theorem firstFailedCheck_of_ofCode_none (h : Op.ofCode (opcField w) = none) :
    firstFailedCheck s w payload = some .illegalOpcode := by
  simp only [firstFailedCheck, lookup_legalOpcodes, h]

variable {op : Op} (hop : opcField w = op.code)

include hop

theorem firstFailedCheck_of_mbz_ne_zero (hz : w &&& op.mbz ≠ 0#32) :
    firstFailedCheck s w payload = some .reservedField := by
  simp only [firstFailedCheck, lookup_legalOpcodes, hop, ofCode_code, if_pos hz]

/-- Checks 3 to 5 on a word that the decoder accepts, by its fields. -/
theorem firstFailedCheck_of_mbz_eq_zero (hz : w &&& op.mbz = 0#32) :
    firstFailedCheck s w payload =
      if op.hasChannel = true ∧ 2 ≤ (chField w).toNat then some .badChannel
      else operandCheck op (idxField w).toNat payload (s.chan (Fin.ofNat 2 (chField w).toNat)) := by
  simp only [firstFailedCheck, lookup_legalOpcodes, hop, ofCode_code, if_neg (not_not.mpr hz), ← chField_toNat,
    ← idxField_toNat]

end RawWords

/-! ## The check order on the packet of an instruction -/

theorem hasChannel_op (i : Instr) : i.op.hasChannel = i.channel.isSome := by cases i <;> rfl

theorem chField_command {i : Instr} {ch : Nibble} (hi : i.channel = some ch) : chField i.command = ch := by
  cases i with
  | nop | softReset | nibDec | nibEnc => cases hi
  | coefWr | coefRd | histWr | histRd | passStart | decFrame | encBlock | lpcStart | lpcSample | lpcSolve =>
    cases hi
    exact chField_commandWord _ _ _ _

/-- The bits of the payload that check 4 of `DEC_FRAME` reads are the index of the frame's header (R49, R110). -/
theorem payloadAt_frameWords_index (f : Frame) :
    (payloadAt (frameWords f) 0).toNat / 16 % 16 = f[0].toNat / 16 := by
  have := f[0].isLt
  show (packBytes f[0] f[1] f[2] f[3]).toNat / 16 % 16 = _
  simp only [packBytes, toNat_append_eq]
  omega

section Packets

variable {i : Instr} (s : State)

theorem firstFailedCheck_noChannel (hi : i.channel = none) : firstFailedCheck s i.command i.payload = none := by
  obtain ⟨hop, hz, -⟩ := commandWord_statement i
  rw [firstFailedCheck_of_mbz_eq_zero s _ hop hz, hasChannel_op, hi, if_neg (by simp)]
  cases i with
  | nop | softReset | nibDec | nibEnc => rfl
  | coefWr | coefRd | histWr | histRd | passStart | decFrame | encBlock | lpcStart | lpcSample | lpcSolve => cases hi

variable {ch : Nibble} (hi : i.channel = some ch)

include hi

theorem firstFailedCheck_badChannel (h : 2 ≤ ch.toNat) :
    firstFailedCheck s i.command i.payload = some .badChannel := by
  obtain ⟨hop, hz, -⟩ := commandWord_statement i
  rw [firstFailedCheck_of_mbz_eq_zero s _ hop hz, hasChannel_op, chField_command hi, hi, if_pos ⟨rfl, h⟩]

theorem firstFailedCheck_onChannel {c : Fin 2} (hc : ch.toNat = c.val) :
    firstFailedCheck s i.command i.payload =
      operandCheck i.op (idxField i.command).toNat i.payload (s.chan c) := by
  obtain ⟨hop, hz, -⟩ := commandWord_statement i
  rw [firstFailedCheck_of_mbz_eq_zero s _ hop hz, chField_command hi, hc, Fin.ofNat_val_eq_self,
    if_neg (fun h => Nat.not_le.mpr c.isLt h.2)]

end Packets

/-! ## What a check says of an answer -/

/-- `r` answers the fault entry of the failing check, or without one a next state with `STATUS` as in `s` (R194). -/
def AnswersCheck (s : State) (check : Option Cause) (r : Result) : Prop :=
  (∀ c, check = some c → r = .next (s.takeFault c)) ∧ (check = none → ∃ t, r = .next t ∧ t.status = s.status)

section Answers

variable {s : State} {r : Result}

theorem answersCheck_some {c : Cause} (h : r = .next (s.takeFault c)) : AnswersCheck s (some c) r := by
  refine ⟨?_, fun e => nomatch e⟩
  rintro _ ⟨⟩
  exact h

theorem answersCheck_none {t : State} (h : r = .next t) (ht : t.status = s.status) : AnswersCheck s none r :=
  ⟨fun _ e => (nomatch e), fun _ => ⟨t, h, ht⟩⟩

/-- A check on one condition. -/
theorem answersCheck_ite {p : Prop} [Decidable p] {c : Cause} (hfail : p → r = .next (s.takeFault c))
    (hpass : ¬p → AnswersCheck s none r) : AnswersCheck s (if p then some c else none) r := by
  split
  · next hp => exact answersCheck_some (hfail hp)
  · next hp => exact hpass hp

end Answers

/-! ## Operations and the step answer the checks of their packet -/

/-- On a channel that exists an operation answers its own checks. -/
theorem exec_answersCheck_onChannel {i : Instr} {ch : Nibble} {c : Fin 2} (hi : i.channel = some ch)
    (hc : ch.toNat = c.val) (s : State) :
    AnswersCheck s (operandCheck i.op (idxField i.command).toNat i.payload (s.chan c)) (exec i s) := by
  cases i with
  | nop | softReset | nibDec | nibEnc => cases hi
  | coefWr ch idx v => cases hi; exact answersCheck_none (exec_coefWr hc s idx v) rfl
  | coefRd ch idx => cases hi; exact answersCheck_none (exec_coefRd hc s idx) rfl
  | passStart ch => cases hi; exact answersCheck_none (exec_passStart hc s) rfl
  | histWr ch idx v =>
    cases hi
    simp only [Instr.op, operandCheck, Instr.command, idxField_commandWord]
    exact answersCheck_ite (fun h => exec_histWr_badIndex hc s h v) fun h =>
      answersCheck_none (exec_histWr hc s (cell := ⟨idx.toNat, Nat.not_le.mp h⟩) rfl v) rfl
  | histRd ch idx =>
    cases hi
    simp only [Instr.op, operandCheck, Instr.command, idxField_commandWord]
    exact answersCheck_ite (exec_histRd_badIndex hc s) fun h =>
      answersCheck_none (exec_histRd hc s (cell := ⟨idx.toNat, Nat.not_le.mp h⟩) rfl) rfl
  | encBlock ch len b =>
    cases hi
    simp only [Instr.op, operandCheck, Instr.command, idxField_commandWord]
    have := len.isLt
    exact answersCheck_ite (fun h => exec_encBlock_badIndex hc s h b) fun h =>
      answersCheck_none (exec_encBlock hc s (by omega) (by omega) b) rfl
  | decFrame ch f =>
    cases hi
    simp only [Instr.op, operandCheck, Instr.payload, payloadAt_frameWords_index]
    exact answersCheck_ite (exec_decFrame_coefIndex hc s) fun h =>
      answersCheck_none (exec_decFrame hc s (k := ⟨f[0].toNat / 16, Nat.not_le.mp h⟩) (frameIndex_eq f)) rfl
  | lpcStart ch n =>
    cases hi
    exact answersCheck_ite (exec_lpcStart_lpcLength hc s) fun h =>
      answersCheck_none (exec_lpcStart hc s (Nat.not_le.mp h)) rfl
  | lpcSample ch x =>
    cases hi
    refine answersCheck_ite (fun h => exec_lpcSample_lpcSequence hc s h x) fun h => ?_
    obtain ⟨ha, hlt⟩ := not_or.mp h
    exact answersCheck_none (exec_lpcSample hc s (Bool.not_eq_false _ ▸ ha) (Nat.not_le.mp hlt) x) rfl
  | lpcSolve ch =>
    cases hi
    refine answersCheck_ite (exec_lpcSolve_lpcSequence hc s) fun h => ?_
    obtain ⟨ha, he⟩ := not_or.mp h
    exact answersCheck_none
      (exec_lpcSolve hc s (Bool.not_eq_false _ ▸ ha) (BitVec.eq_of_toNat_eq (not_not.mp he))) rfl

/-- An operation answers the checks of its packet: it has none, or check 3 fails, or the channel exists. -/
theorem exec_answersCheck (i : Instr) (s : State) :
    AnswersCheck s (firstFailedCheck s i.command i.payload) (exec i s) := by
  cases hi : i.channel with
  | none =>
    rw [firstFailedCheck_noChannel s hi]
    rcases exec_noChannel hi s with ⟨-, e⟩ | ⟨-, e⟩ | ⟨u, -, e⟩ | ⟨b, -, e⟩ <;> exact answersCheck_none e rfl
  | some ch =>
    by_cases hch : ch.toNat < 2
    · rw [firstFailedCheck_onChannel s hi (c := ⟨ch.toNat, hch⟩) rfl]
      exact exec_answersCheck_onChannel hi rfl s
    · rw [firstFailedCheck_badChannel s hi (Nat.not_lt.mp hch)]
      exact answersCheck_some (exec_badChannel hi (Nat.not_lt.mp hch) s)

/-- The step on the next packet answers its checks, on the state with the packet consumed: the decoder makes the first
two, and a packet it accepts is the packet of the instruction it reads. -/
theorem step_answersCheck {s : State} {w : Word} {payload rest : List Word} {turns : List Turn}
    (hn : s.NextPacket (w :: payload) rest turns) :
    AnswersCheck ({ s with script := turns }.consume (w :: payload) rest) (firstFailedCheck s w payload) (step s) := by
  cases hcode : Op.ofCode (opcField w) with
  | none =>
    rw [firstFailedCheck_of_ofCode_none s payload hcode]
    exact answersCheck_some (step_rejected hn (decode_of_ofCode_none hcode payload))
  | some op =>
    have hop := ofCode_eq_some.mp hcode
    by_cases hz : w &&& op.mbz = 0#32
    · have hd := decode_of_mbz_eq_zero hop hz payload
      have ⟨_, _, hp⟩ := hn
      obtain ⟨hcommand, hpayload⟩ := List.cons.inj (decodedPacketEncodesBack _ _ _ _ hp hd)
      have hexec := exec_answersCheck (op.operands w payload) ({ s with script := turns }.consume (w :: payload) rest)
      rw [hcommand, hpayload] at hexec
      rw [step_nextPacket hn, decodeWords, hd]
      exact hexec
    · rw [firstFailedCheck_of_mbz_ne_zero s payload hop hz]
      exact answersCheck_some (step_rejected hn (decode_of_mbz_ne_zero hop hz payload))

/-- Settles O14: the step answers the packet's checks; in the two examples an earlier check fails before the later ones
would. -/
theorem checkOrderGivesTheCause : Obligations.CheckOrderGivesTheCause := by
  unfold Obligations.CheckOrderGivesTheCause
  refine ⟨by decide, fun s w payload rest turns hn => ?_, fun s => ⟨?_, ?_⟩⟩
  · obtain ⟨hfail, hpass⟩ := step_answersCheck hn
    refine ⟨fun c hc => ?_, hpass⟩
    rw [hfail c hc, Nat.add_comm 1]
    rfl
  · exact firstFailedCheck_of_mbz_ne_zero s _ (op := .decFrame) (by decide) (by decide)
  · exact (firstFailedCheck_of_mbz_eq_zero s _ (op := .histWr) (by decide) (by decide)).trans (if_pos (by decide))

/-- Settles O15: the two answers of `exec_answersCheck`. -/
theorem faultingOperationWritesStatusOnly : Obligations.FaultingOperationWritesStatusOnly := by
  unfold Obligations.FaultingOperationWritesStatusOnly
  intro i s
  obtain ⟨hfail, hpass⟩ := exec_answersCheck i s
  cases hcheck : firstFailedCheck s i.command i.payload with
  | none => exact .inl (hpass hcheck)
  | some c => exact .inr ⟨c, hfail c hcheck⟩

/-! ## The fault state (R193, R196, R197) -/

/-- No move of the host writes the schedule. -/
theorem hostMove_script (m : Turn) (s : State) : (hostMove m s).script = s.script := by
  cases m with
  | block | present | withdraw | reset => rfl
  | takeRsp =>
    simp only [hostMove, State.takeResponse]
    split <;> rfl

/-- No move of the host but `rst_n` reaches a register, `STATUS`, `PKTBUF` or the stream index (R184). -/
theorem hostMove_frozen {m : Turn} (hm : m ≠ .reset) (s : State) :
    (hostMove m s).chans = s.chans ∧ (hostMove m s).status = s.status ∧ (hostMove m s).pktbuf = s.pktbuf ∧
      (hostMove m s).pos = s.pos := by
  cases m with
  | reset => exact absurd rfl hm
  | block | present | withdraw => exact ⟨rfl, rfl, rfl, rfl⟩
  | takeRsp =>
    simp only [hostMove, State.takeResponse]
    split <;> exact ⟨rfl, rfl, rfl, rfl⟩

section FaultState

variable {s : State} (hf : s.status.fault = true)

include hf

theorem step_faulted_nil (hs : s.script = []) : step s = .fault .faulted := by
  rw [step_nil hs, blockTurn_faulted hf, endOfRun, if_pos hf]

/-- In the fault state every step is the move of the host at the schedule's head; the block's own turn passes, as the
move `block` of `hostMove` does. -/
theorem step_faulted_cons {m : Turn} {turns : List Turn} (hs : s.script = m :: turns) :
    step s = .next (hostMove m { s with script := turns }) := by
  by_cases hm : m = .block
  · subst hm
    exact step_block_idle hs (.inl hf)
  · exact step_host hs hm

theorem step_faulted_next {t : State} (h : step s = .next t) :
    ∃ m turns, s.script = m :: turns ∧ t = hostMove m { s with script := turns } := by
  cases hs : s.script with
  | nil =>
    rw [step_faulted_nil hf hs] at h
    cases h
  | cons m turns =>
    rw [step_faulted_cons hf hs] at h
    cases h
    exact ⟨m, turns, rfl, rfl⟩

end FaultState

/-- Settles O16: a step in the fault state is a move of the host, which but for `rst_n` reaches nothing of the block
except the response queue. -/
theorem faultStateIsFrozen : Obligations.FaultStateIsFrozen := by
  unfold Obligations.FaultStateIsFrozen
  intro s hf
  refine ⟨step_faulted_nil hf, fun turns hs => step_faulted_cons hf hs, by simp [State.cmdReady, hf],
    fun t hreset h => ?_⟩
  obtain ⟨m, turns, hs, rfl⟩ := step_faulted_next hf h
  have hm : m ≠ .reset := fun e => hreset (by simp [hs, e])
  obtain ⟨hchans, hstatus, hpktbuf, hpos⟩ := hostMove_frozen hm { s with script := turns }
  exact ⟨hchans, hstatus, hpktbuf, hpos, hostMove_delivered hm _⟩

/-- One step of a run without `rst_n` in the fault state keeps what the run needs: `STATUS`, and a schedule without
`rst_n`. -/
theorem step_faulted_keeps {s t : State} (hf : s.status.fault = true) (hr : Turn.reset ∉ s.script)
    (h : step s = .next t) : t.status = s.status ∧ Turn.reset ∉ t.script := by
  obtain ⟨m, turns, hs, rfl⟩ := step_faulted_next hf h
  rw [hs, List.mem_cons, not_or] at hr
  obtain ⟨hm, hturns⟩ := hr
  obtain ⟨-, hstatus, -, -⟩ := hostMove_frozen (Ne.symm hm) { s with script := turns }
  exact ⟨hstatus, by rwa [hostMove_script]⟩

/-- Settles O17, by induction on the number of steps. -/
theorem firstCauseIsTheOnlyOne : Obligations.FirstCauseIsTheOnlyOne := by
  unfold Obligations.FirstCauseIsTheOnlyOne
  intro n
  induction n with
  | zero =>
    rintro s t - - ⟨⟩
    rfl
  | succ n ih =>
    intro s t hf hr hrun
    cases h : step s with
    | next u =>
      obtain ⟨hstatus, hr'⟩ := step_faulted_keeps hf hr h
      rw [core_run_next h] at hrun
      rw [ih u t (hstatus ▸ hf) hr' hrun, hstatus]
    | fault f =>
      rw [core_run_fault h] at hrun
      cases hrun
    | refused r =>
      rw [core_run_refused h] at hrun
      cases hrun

end Sys2Proof.Machine
end

section
/-! PROOFS. The ends of a run and `rst_n` (70_reset_and_hazards.md R210, R221, R224): when the block can transfer no
word, when a step therefore ends the run, and how many steps a finite stream lasts. -/

namespace Sys2Proof.Machine

/-! ## Reset -/

/-- Settles O18: both ports are idle at the host's reset, and that move is `hardReset` by definition. -/
theorem hardResetClearsTheBlock : Obligations.HardResetClearsTheBlock := by
  unfold Obligations.HardResetClearsTheBlock
  intro s turns hs
  obtain ⟨hready, hvalid, -⟩ := ports_reset hs
  exact ⟨hready, hvalid, step_host hs (by simp)⟩

/-! ## A block that can transfer no word -/

/-- The block can transfer no word: it has faulted, or no word is pending and `PKTBUF` holds no complete packet. It is
the last case of `blockTurn_cases`. -/
def State.NoTransfer (s : State) : Prop :=
  s.status.fault = true ∨ (s.status.fault = false ∧ splitPacket (s.pktbuf ++ s.pending) = none ∧ s.pending = [])

/-- The three situations of R221; an empty `PKTBUF` holds no packet. -/
theorem noTransfer_iff {s : State} :
    s.NoTransfer ↔ s.status.fault = true ∨ (s.status.fault = false ∧ s.pending = [] ∧ s.pktbuf = []) ∨
      (s.status.fault = false ∧ s.pending = [] ∧ s.pktbuf ≠ [] ∧ splitPacket s.pktbuf = none) := by
  unfold State.NoTransfer
  by_cases hw : s.pending = []
  · by_cases hb : s.pktbuf = []
    · simp [hw, hb, splitPacket]
    · simp [hw, hb]
  · simp [hw]

/-- In each of the three situations `endOfRun` answers the end that R221 names for it. -/
theorem noTransfer_endOfRun_iff {s : State} {f : Fault} :
    s.NoTransfer ∧ f = endOfRun s ↔
      (f = .faulted ∧ s.status.fault = true) ∨
      (f = .finished ∧ s.status.fault = false ∧ s.pending = [] ∧ s.pktbuf = []) ∨
      (f = .stuck ∧ s.status.fault = false ∧ s.pending = [] ∧ s.pktbuf ≠ [] ∧ splitPacket s.pktbuf = none) := by
  rw [noTransfer_iff, endOfRun]
  cases hf : s.status.fault with
  | true => simp
  | false =>
    by_cases hb : s.pktbuf = []
    · simp [hb, and_comm]
    · simp [hb, and_comm]

/-- The block's turn waits, or it answers a next state. -/
theorem blockTurn_waits_or_next (s : State) (waiting : Result) :
    (s.NoTransfer ∧ blockTurn s waiting = waiting) ∨ (¬s.NoTransfer ∧ ∃ t, blockTurn s waiting = .next t) := by
  rcases blockTurn_cases s waiting with ⟨hf, packet, rest, hp, ⟨i, -, e⟩ | ⟨r, -, e⟩⟩ | ⟨hf, -, hw, e⟩ | h
  · exact .inr ⟨by simp [State.NoTransfer, hf, hp], e ▸ exec_next i _⟩
  · exact .inr ⟨by simp [State.NoTransfer, hf, hp], _, e⟩
  · exact .inr ⟨by simp [State.NoTransfer, hf, hw], _, e⟩
  · exact .inl h

/-! ## The end of a run -/

/-- With a turn on the schedule a step never ends the run. -/
theorem step_cons_next {s : State} {m : Turn} {turns : List Turn} (hs : s.script = m :: turns) :
    ∃ t, step s = .next t := by
  by_cases hm : m = .block
  · subst hm
    rw [step_block hs]
    rcases blockTurn_waits_or_next { s with script := turns } (.next { s with script := turns }) with
      ⟨-, e⟩ | ⟨-, t, e⟩
    · exact ⟨_, e⟩
    · exact ⟨t, e⟩
  · exact ⟨_, step_host hs hm⟩

/-- A step ends the run exactly when neither the host nor the block has a move left. -/
theorem step_fault_iff {s : State} {f : Fault} :
    step s = .fault f ↔ s.script = [] ∧ s.NoTransfer ∧ f = endOfRun s := by
  cases hs : s.script with
  | nil =>
    rw [step_nil hs]
    rcases blockTurn_waits_or_next s (.fault (endOfRun s)) with ⟨hw, e⟩ | ⟨hw, t, e⟩
    · simp [e, hw, eq_comm]
    · simp [e, hw]
  | cons m turns =>
    obtain ⟨t, e⟩ := step_cons_next hs
    simp [e]

/-- Settles O10: the end by `step_fault_iff`, the turn that passes by `step_block_idle`. -/
theorem runEndsInOneOfThreeWays : Obligations.RunEndsInOneOfThreeWays := by
  unfold Obligations.RunEndsInOneOfThreeWays
  refine ⟨fun s f => ?_, fun s turns hs h => step_block_idle hs (noTransfer_iff.mpr h)⟩
  rw [step_fault_iff, noTransfer_endOfRun_iff]

/-! ## The length of a run -/

/-- The words in `PKTBUF` and on the stream. -/
def State.wordsLeft (s : State) : Nat := s.pktbuf.length + s.pending.length

/-- The step on the next packet, executed or rejected, leaves the words behind it and the rest of the schedule. -/
theorem step_nextPacket_leaves {s : State} {packet rest : List Word} {turns : List Turn}
    (hn : s.NextPacket packet rest turns) :
    ∃ t, step s = .next t ∧ t.pktbuf = [] ∧ t.pending = rest ∧ t.script = turns := by
  rw [step_nextPacket hn]
  cases decodeWords packet with
  | reject r => exact ⟨_, rfl, rfl, rfl, rfl⟩
  | instr i =>
    obtain ⟨t, ht⟩ := exec_next i ({ s with script := turns }.consume packet rest)
    obtain ⟨hpktbuf, -, hpending, -, hscript, -⟩ := exec_keeps ht
    exact ⟨t, ht, hpktbuf, hpending, hscript⟩

/-- A packet has a word at least, so that what is left behind it is less. -/
theorem splitPacket_rest_lt {stream packet rest : List Word} (h : splitPacket stream = some (packet, rest)) :
    rest.length < stream.length := by
  obtain ⟨rfl, hne⟩ := splitPacket_append h
  have := List.length_pos_iff.mpr hne
  simpa using this

/-- With no move of the host left a step ends the run, or consumes words, or the next step ends the run. -/
theorem step_nil_cases {s : State} (hs : s.script = []) :
    (∃ f, step s = .fault f) ∨
    ∃ t, step s = .next t ∧ ((t.script = [] ∧ t.wordsLeft < s.wordsLeft) ∨ ∃ f, step t = .fault f) := by
  rcases blockTurn_cases s (.fault (endOfRun s)) with ⟨hf, packet, rest, hp, -⟩ | ⟨hf, hp, hw, -⟩ | ⟨hwait, -⟩
  · obtain ⟨t, ht, hpktbuf, hpending, hscript⟩ := step_nextPacket_leaves ⟨hf, .inl ⟨hs, rfl⟩, hp⟩
    have hless := splitPacket_rest_lt hp
    exact .inr ⟨t, ht, .inl ⟨hscript, by simpa [State.wordsLeft, hpktbuf, hpending] using hless⟩⟩
  · have hwait : State.NoTransfer { s with pktbuf := s.pktbuf ++ s.pending, pending := [], script := [] } :=
      .inr ⟨hf, by simpa using hp, rfl⟩
    exact .inr ⟨_, step_partly (.inl ⟨hs, rfl⟩) hf hp hw, .inr ⟨_, step_fault_iff.mpr ⟨rfl, hwait, rfl⟩⟩⟩
  · exact .inl ⟨_, step_fault_iff.mpr ⟨hs, hwait, rfl⟩⟩

/-- Two steps more than there are words left: one for each packet, which has a word at least, one to move an incomplete
packet to `PKTBUF`, and the one that ends the run. -/
theorem core_run_ends {n : Nat} {s : State} (hs : s.script = []) (hn : s.wordsLeft ≤ n) :
    ∃ f, Host.Core.run core (n + 2) s = .fault f := by
  induction n using Nat.strong_induction_on generalizing s with
  | _ n ih =>
    rcases step_nil_cases hs with ⟨f, h⟩ | ⟨t, h, ⟨ht, hless⟩ | ⟨f, h'⟩⟩
    · exact ⟨f, core_run_fault h⟩
    · obtain ⟨m, rfl⟩ := Nat.exists_eq_add_one_of_ne_zero (show n ≠ 0 by omega)
      rw [core_run_next h]
      exact ih m m.lt_add_one ht (by omega)
    · exact ⟨f, (core_run_next h).trans (core_run_fault h')⟩

/-- Settles O11, by induction on the words left. -/
theorem finiteStreamRunEnds : Obligations.FiniteStreamRunEnds := by
  unfold Obligations.FiniteStreamRunEnds
  exact fun s hs => core_run_ends hs le_rfl

end Sys2Proof.Machine
end
